-- ==== Sys2Proof/Word.lean ====
section
/-! DEFINITION. The widths of the block (R5, R6 of spec/00_scope.md; R27 of spec/10_state.md). All values are
unsigned bit vectors; bit 0 is the least significant. -/

namespace Sys2Proof

/-- What one ROM device delivers per read: 8 bits (R28, R45). -/
abbrev Byte := BitVec 8

/-- A control word: 16 bits, one per control line (R5, R87). -/
abbrev Word := BitVec 16

/-- A logical address, format ADDR10 (R70). -/
abbrev Addr10 := BitVec 10

/-- A physical address, format ADDR13: the pins A[12:0] of one device (R27, R76). -/
abbrev Addr13 := BitVec 13

end Sys2Proof
end

