-- ==== Sys2Proof/Config.lean ====
section
/-! DEFINITION. The configuration record `Cfg` of R5 (spec/00_scope.md): the names the spec uses (mnemonics,
control lines, micro-operations) and the four parameters OPC, LINE_BIT, CW, JNC_BASE2, as plain data. The constraints
R5 puts on OPC and LINE_BIT travel with the data; K1 of R92 (`CW(UOP_NONE) = 0x0000`) is built in (log 7). The block is
constant in these: no step changes them. -/

namespace Sys2Proof

/-- The 16 mnemonics (R80), in the order of the table of R111. -/
inductive Mnemonic where
  | lda | add | sub | sta | mvi | inc | dec | jc | jnc | jz | jnz | jmp | out | hlt | nop | cmp
  deriving DecidableEq, Repr

def Mnemonic.all : List Mnemonic :=
  [.lda, .add, .sub, .sta, .mvi, .inc, .dec, .jc, .jnc, .jz, .jnz, .jmp, .out, .hlt, .nop, .cmp]

/-- The 16 control lines (R88): `hlt mi eo ce j su fi` are the source's, the other nine the spec's inference (log 23). -/
inductive Line where
  | hlt | mi | ri | ro | io | ii | ai | ao | eo | su | bi | oi | ce | co | j | fi
  deriving DecidableEq, Repr

def Line.all : List Line :=
  [.hlt, .mi, .ri, .ro, .io, .ii, .ai, .ao, .eo, .su, .bi, .oi, .ce, .co, .j, .fi]

/-- The micro-operations (R89): `none` is UOP_NONE, the empty cell; the other 14 are the register transfers. Cells with
one description are one micro-operation (D6, log 21). -/
inductive Uop where
  | none | fetch0 | fetch1 | marIr | aRam | bRam | aluAdd | aluSub | ramA | aIr | bIr | jump | outA | halt | cmp
  deriving DecidableEq, Repr

def Uop.all : List Uop :=
  [.none, .fetch0, .fetch1, .marIr, .aRam, .bRam, .aluAdd, .aluSub, .ramA, .aIr, .bIr, .jump, .outA, .halt, .cmp]

/-- A number for each mnemonic: the raw data of the parameter OPC. -/
structure OpcMap where
  (lda add sub sta mvi inc dec jc jnc jz jnz jmp out hlt nop cmp : BitVec 4)
  deriving DecidableEq, Repr

def OpcMap.num (o : OpcMap) : Mnemonic → BitVec 4
  | .lda => o.lda | .add => o.add | .sub => o.sub | .sta => o.sta
  | .mvi => o.mvi | .inc => o.inc | .dec => o.dec | .jc => o.jc
  | .jnc => o.jnc | .jz => o.jz | .jnz => o.jnz | .jmp => o.jmp
  | .out => o.out | .hlt => o.hlt | .nop => o.nop | .cmp => o.cmp

/-- R5: OPC is a bijection between the 16 mnemonics and 0..15. No two mnemonics share a number, and every number
is some mnemonic's. -/
def OpcMap.bijective (o : OpcMap) : Bool :=
  (Mnemonic.all.all fun m => Mnemonic.all.all fun n => decide (o.num m = o.num n → m = n)) &&
  ((List.range 16).all fun v => Mnemonic.all.any fun m => decide (o.num m = BitVec.ofNat 4 v))

/-- The parameter OPC of R5: the numbering with its constraint. -/
structure Opc where
  map : OpcMap
  bij : map.bijective = true
  deriving DecidableEq, Repr

/-- OPC(m) (R8). -/
def Opc.num (o : Opc) (m : Mnemonic) : BitVec 4 := o.map.num m

/-- A bit position for each line: the raw data of the parameter LINE_BIT. -/
structure LineMap where
  (hlt mi ri ro io ii ai ao eo su bi oi ce co j fi : BitVec 4)
  deriving DecidableEq, Repr

def LineMap.bit (p : LineMap) : Line → BitVec 4
  | .hlt => p.hlt | .mi => p.mi | .ri => p.ri | .ro => p.ro
  | .io => p.io | .ii => p.ii | .ai => p.ai | .ao => p.ao
  | .eo => p.eo | .su => p.su | .bi => p.bi | .oi => p.oi
  | .ce => p.ce | .co => p.co | .j => p.j | .fi => p.fi

/-- R5: LINE_BIT is injective. -/
def LineMap.injective (p : LineMap) : Bool :=
  Line.all.all fun l => Line.all.all fun k => decide (p.bit l = p.bit k → l = k)

/-- The parameter LINE_BIT of R5: the positions with their constraint. -/
structure LineBit where
  map : LineMap
  inj : map.injective = true
  deriving DecidableEq, Repr

/-- LINE_BIT(l) (R87). -/
def LineBit.bit (p : LineBit) (l : Line) : BitVec 4 := p.map.bit l

/-- The words of the 14 register transfers: the parameter CW of R5. -/
structure CwMap where
  (fetch0 fetch1 marIr aRam bRam aluAdd aluSub ramA aIr bIr jump outA halt cmp : Word)
  deriving DecidableEq, Repr

/-- CW(u) (R8, R89). `CW(UOP_NONE) = 0x0000` whatever the parameter (K1 of R92). -/
def CwMap.word (w : CwMap) : Uop → Word
  | .none => 0#16
  | .fetch0 => w.fetch0 | .fetch1 => w.fetch1 | .marIr => w.marIr | .aRam => w.aRam
  | .bRam => w.bRam | .aluAdd => w.aluAdd | .aluSub => w.aluSub | .ramA => w.ramA
  | .aIr => w.aIr | .bIr => w.bIr | .jump => w.jump | .outA => w.outA
  | .halt => w.halt | .cmp => w.cmp

/-- The parameter JNC_BASE2 of R5, with exactly its two admitted values (D5). -/
inductive JncBase2 where
  | uopNone | uopJump
  deriving DecidableEq, Repr

def JncBase2.uop : JncBase2 → Uop
  | .uopNone => .none
  | .uopJump => .jump

/-- The configuration record of R5. -/
structure Cfg where
  opc : Opc
  lineBit : LineBit
  cw : CwMap
  jncBase2 : JncBase2
  deriving DecidableEq, Repr

/-- CW(u) under a configuration. -/
def Cfg.word (c : Cfg) (u : Uop) : Word := c.cw.word u

end Sys2Proof
end

