-- ==== Sys2Proof/Machine/Reference.lean ====
section
/-! DEFINITION. The reference instances of the parameters: OPC_REF (R81), LINE_BIT_REF (R90), CW_REF (R93 of
spec/30_encoding.md) and JNC_BASE2 = UOP_NONE (D5). The spec prints its numeric vectors with them and no rule depends
on them. The model uses them in two places only: `State.reset` must name a value for `cfg`, and the opcode table's
words are numbered by OPC_REF. DESIGN CHOICE (OPC_REF, log 4; JNC_BASE2, log 6), PRESUMED (LINE_BIT_REF, CW_REF,
log 5); unsafe: a statement about one concrete configuration is not a statement about the real ROM. -/

namespace Sys2Proof.Machine

/-- OPC_REF (R81): the order of the §4.1 table. -/
def opcRefMap : OpcMap :=
  { lda := 0, add := 1, sub := 2, sta := 3, mvi := 4, inc := 5, dec := 6, jc := 7
    jnc := 8, jz := 9, jnz := 10, jmp := 11, out := 12, hlt := 13, nop := 14, cmp := 15 }

def opcRef : Opc := ⟨opcRefMap, by decide⟩

/-- LINE_BIT_REF (R90). -/
def lineBitRefMap : LineMap :=
  { hlt := 15, mi := 14, ri := 13, ro := 12, io := 11, ii := 10, ai := 9, ao := 8
    eo := 7, su := 6, bi := 5, oi := 4, ce := 3, co := 2, j := 1, fi := 0 }

def lineBitRef : LineBit := ⟨lineBitRefMap, by decide⟩

/-- CW_REF (R93). -/
def cwRef : CwMap :=
  { fetch0 := 0x4004, fetch1 := 0x1408, marIr := 0x4800, aRam := 0x1200, bRam := 0x1020
    aluAdd := 0x0281, aluSub := 0x02C1, ramA := 0x2100, aIr := 0x0A00, bIr := 0x0820
    jump := 0x0802, outA := 0x0110, halt := 0x8000, cmp := 0x0041 }

/-- The reference instance of `Cfg`. -/
def referenceCfg : Cfg :=
  { opc := opcRef, lineBit := lineBitRef, cw := cwRef, jncBase2 := .uopNone }

end Sys2Proof.Machine
end

