-- ==== Sys2Proof/Machine/Lines.lean ====
section
/-! DEFINITION. The control word as a set of lines: line flags, the lines a word asserts, and its two halves
(R87, R91, R94 of spec/30_encoding.md). A bit value of 1 means the line is asserted (D17, log 22). -/

namespace Sys2Proof.Machine

/-- Hi(w) = w[15:8] (R94). -/
def hiByte (w : Word) : Byte := w.extractLsb' 8 8

/-- Lo(w) = w[7:0] (R94). -/
def loByte (w : Word) : Byte := w.extractLsb' 0 8

/-- The byte-half multiplexer: the high byte if half = 1, else the low byte (R120 item 5). -/
def selectHalf (half : Bool) (w : Word) : Byte := if half then hiByte w else loByte w

/-- A line flag: the 16-bit word with exactly the bit LINE_BIT(l) set (R87). -/
def lineFlag (c : Cfg) (l : Line) : Word := 1#16 <<< (c.lineBit.bit l).toNat

/-- Whether a word asserts ("has", R92) a line: the bit of that line is 1 (R87). -/
def asserts (c : Cfg) (l : Line) (w : Word) : Bool := w.getLsbD (c.lineBit.bit l).toNat

/-- Lines(u): the lines a micro-operation asserts (R91). -/
def linesOf (c : Cfg) (u : Uop) : List Line := Line.all.filter fun l => asserts c l (c.word u)

/-- The bitwise OR of the flags of some lines (R87, R91). -/
def orOfFlags (c : Cfg) (ls : List Line) : Word := ls.foldr (fun l w => lineFlag c l ||| w) 0#16

end Sys2Proof.Machine
end

