-- ==== Sys2Proof/Syntax.lean ====
section
/-! DEFINITION. The instructions: one constructor per row of spec/opcode_table.json. The block decodes the 4-bit
opcode field of an address; the other fields of the address are the operands (R71, R77 of spec/30_encoding.md). -/

namespace Sys2Proof

/-- The operands of every instruction: the fields of an ADDR10 address other than the opcode (R71). Flag value `true` is
"set" (D12), half `true` is the high byte. -/
structure Operands where
  step : BitVec 3
  half : Bool
  carry : Bool
  zero : Bool
  deriving DecidableEq, Repr

/-- The 16 instructions (R80), in the order of the opcode table. -/
inductive Instr where
  | lda (q : Operands)
  | add (q : Operands)
  | sub (q : Operands)
  | sta (q : Operands)
  | mvi (q : Operands)
  | inc (q : Operands)
  | dec (q : Operands)
  | jc (q : Operands)
  | jnc (q : Operands)
  | jz (q : Operands)
  | jnz (q : Operands)
  | jmp (q : Operands)
  | out (q : Operands)
  | hlt (q : Operands)
  | nop (q : Operands)
  | cmp (q : Operands)
  deriving DecidableEq, Repr

/-- The instruction of a mnemonic with given operands. -/
def Instr.ofMnemonic (q : Operands) : Mnemonic → Instr
  | .lda => .lda q | .add => .add q | .sub => .sub q | .sta => .sta q
  | .mvi => .mvi q | .inc => .inc q | .dec => .dec q | .jc => .jc q
  | .jnc => .jnc q | .jz => .jz q | .jnz => .jnz q | .jmp => .jmp q
  | .out => .out q | .hlt => .hlt q | .nop => .nop q | .cmp => .cmp q

def Instr.mnemonic : Instr → Mnemonic
  | .lda _ => .lda | .add _ => .add | .sub _ => .sub | .sta _ => .sta
  | .mvi _ => .mvi | .inc _ => .inc | .dec _ => .dec | .jc _ => .jc
  | .jnc _ => .jnc | .jz _ => .jz | .jnz _ => .jnz | .jmp _ => .jmp
  | .out _ => .out | .hlt _ => .hlt | .nop _ => .nop | .cmp _ => .cmp

def Instr.operands : Instr → Operands
  | .lda q => q | .add q => q | .sub q => q | .sta q => q
  | .mvi q => q | .inc q => q | .dec q => q | .jc q => q
  | .jnc q => q | .jz q => q | .jnz q => q | .jmp q => q
  | .out q => q | .hlt q => q | .nop q => q | .cmp q => q

end Sys2Proof
end

