-- ==== Sys2Proof/WellFormed.lean ====
section
/-! DEFINITION. The checks: which steps have content (R70, R84 of spec/30_encoding.md), and the constraints K2 to K11 of
R92 on a configuration, each a named hypothesis (log 27). The constraints on OPC and LINE_BIT are `OpcMap.bijective` and `LineMap.injective` in Config.lean, carried
by the types. An `Instr` itself needs no check: its operands have exactly the widths of their fields. -/

namespace Sys2Proof

/-- A step with content: 0..5; 6 and 7 are filler (R70, R84). -/
def hasContent (step : BitVec 3) : Bool := decide (step.toNat ≤ 5)

namespace Cfg

/-- Some word has a line. -/
def has (c : Cfg) (u : Uop) (l : Line) : Bool := Machine.asserts c l (c.word u)

/-- K2: CW(UOP_HALT) has HLT. -/
def k2 (c : Cfg) : Bool := c.has .halt .hlt

/-- K3: CW(UOP_JUMP) has J. -/
def k3 (c : Cfg) : Bool := c.has .jump .j

/-- K4: CW(UOP_FETCH0) and CW(UOP_MAR_IR) have MI. -/
def k4 (c : Cfg) : Bool := c.has .fetch0 .mi && c.has .marIr .mi

/-- K5: CW(UOP_FETCH1) has CE. -/
def k5 (c : Cfg) : Bool := c.has .fetch1 .ce

/-- K6: CW(UOP_ALU_ADD) and CW(UOP_ALU_SUB) have EO and FI. -/
def k6 (c : Cfg) : Bool :=
  c.has .aluAdd .eo && c.has .aluAdd .fi && c.has .aluSub .eo && c.has .aluSub .fi

/-- K7: CW(UOP_ALU_SUB) and CW(UOP_CMP) have SU; CW(UOP_ALU_ADD) does not. -/
def k7 (c : Cfg) : Bool := c.has .aluSub .su && c.has .cmp .su && !c.has .aluAdd .su

/-- K8: CW(UOP_CMP) has FI and does not have the A-load line. -/
def k8 (c : Cfg) : Bool := c.has .cmp .fi && !c.has .cmp .ai

/-- K9: no word other than CW(UOP_JUMP) has J; no word other than CW(UOP_HALT) has HLT. -/
def k9 (c : Cfg) : Bool :=
  Uop.all.all fun u => (decide (u = .jump) || !c.has u .j) && (decide (u = .halt) || !c.has u .hlt)

/-- K10: every CW(u) with u other than UOP_NONE is non-zero. -/
def k10 (c : Cfg) : Bool := Uop.all.all fun u => decide (u = .none) || decide (c.word u ≠ 0#16)

/-- K11: no word other than CW(UOP_ALU_ADD), CW(UOP_ALU_SUB), CW(UOP_CMP) has FI. -/
def k11 (c : Cfg) : Bool :=
  Uop.all.all fun u => decide (u = .aluAdd ∨ u = .aluSub ∨ u = .cmp) || !c.has u .fi

end Cfg

end Sys2Proof
end

