-- ==== Sys2Proof/Decode.lean ====
section
/-! DEFINITION. The ROM address decoder and its inverse: `Decode` and `Encode` of an ADDR10 (R73, R74 of
spec/30_encoding.md), the instruction an address selects under a numbering OPC (R76, R82), and the encoder of
instructions. Total; the rejections are named. -/

namespace Sys2Proof

/-- The five fields of an ADDR10 (R71). -/
structure Fields where
  step : BitVec 3
  opcode : BitVec 4
  half : Bool
  carry : Bool
  zero : Bool
  deriving DecidableEq, Repr

/-- `Decode` (R73): step = a[2:0], opcode = a[6:3], half = a[7], carry = a[8], zero = a[9]. Never fails. -/
def decodeFields (a : Addr10) : Fields :=
  { step := a.extractLsb' 0 3
    opcode := a.extractLsb' 3 4
    half := a.getLsbD 7
    carry := a.getLsbD 8
    zero := a.getLsbD 9 }

/-- `Encode` (R74): the concatenation zero, carry, half, opcode, step, most significant first. -/
def encodeFields (f : Fields) : Addr10 :=
  BitVec.ofBool f.zero ++ BitVec.ofBool f.carry ++ BitVec.ofBool f.half ++ f.opcode ++ f.step

/-- The address is an ADDR10: none of the unnamed bits 12..10 is set (R76). -/
def Addr13.logical (a : Addr13) : Bool := decide (a.extractLsb' 10 3 = 0#3)

/-- The logical part A[9:0] of a physical address (R27, R76). -/
def Addr13.low (a : Addr13) : Addr10 := a.extractLsb' 0 10

/-- `zext_13` of a logical address: bits 12..10 held at 0 (R29, R124). -/
def Addr10.physical (a : Addr10) : Addr13 := a.setWidth 13

/-- "mnemonic of opcode", the inverse of the bijection OPC (R110). The default is never reached: every number is some
mnemonic's (`Opc.num_mnemonicOf` in Laws). -/
def Opc.mnemonicOf (o : Opc) (v : BitVec 4) : Mnemonic :=
  (Mnemonic.all.find? fun m => decide (o.num m = v)).getD .nop

/-- Why a word is no instruction of the table. Neither is a fault of the block: see `Machine.step` for what an address
above the logical space reads. -/
inductive Reject where
  | aboveLogicalSpace   -- one of A[12:10] is set: the address is "beyond 1023" and is not decoded (R76, R85)
  | noSuchAddress       -- the word does not fit the 13 address pins (R27): raised by `decodeWord` only
  deriving DecidableEq, Repr

/-- The instruction an address selects: it belongs to the mnemonic its opcode field numbers (R76, R82, R83). -/
def decode (o : Opc) (a : Addr13) : Except Reject Instr :=
  if Addr13.logical a then
    let f := decodeFields (Addr13.low a)
    .ok (Instr.ofMnemonic ⟨f.step, f.half, f.carry, f.zero⟩ (o.mnemonicOf f.opcode))
  else .error .aboveLogicalSpace

/-- `decode` on a number of any size: what does not fit 13 pins is no address (R27, log 12). -/
def decodeWord (o : Opc) (w : Nat) : Except Reject Instr :=
  if w < 8192 then decode o (BitVec.ofNat 13 w) else .error .noSuchAddress

/-- The fields of an instruction's address under a numbering. -/
def Instr.fields (o : Opc) (i : Instr) : Fields :=
  { step := i.operands.step, opcode := o.num i.mnemonic, half := i.operands.half
    carry := i.operands.carry, zero := i.operands.zero }

/-- The address of an instruction (R74, R82), with bits 12..10 zero. -/
def encode (o : Opc) (i : Instr) : Addr13 := Addr10.physical (encodeFields (i.fields o))

/-- The instruction the decoder reads from a word of spec/opcode_table.json, whose match values are numbered by
OPC_REF. A row gives 10 bits (two bytes); the word is the address itself, so no byte order enters (log 12). -/
def decodeTableWord (nbits w : Nat) : Option Instr :=
  match decodeWord Machine.opcRef (w % 2 ^ nbits) with
  | .ok i => some i
  | .error _ => none

end Sys2Proof
end

