-- ==== Sys2Proof/Machine/State.lean ====
section
/-! DEFINITION. The state. The block has no mutable state (R11 of spec/00_scope.md, R20 to R31 of spec/10_state.md): what
is here is its configuration, its two constant images, its inputs, and the driver of R10 and D22 that presents inputs and
observes outputs. The outputs hold no stored value (R30) and are functions of the state (Machine/Ops.lean). -/

namespace Sys2Proof.Machine

/-- The image of one device, in canonical form: the cells, in strictly rising order of address, whose byte differs from
what an unlisted address reads as (`unlisted`, Machine/Ops.lean: the specified image). The cells of an image made by a
run that logged no fault are none (R250, R267, log 9). -/
abbrev Memory := List Host.Cell

/-- One observation of the driver: the byte on the data pins of the device that `half` selects, and the word on the
composite's control bus, sampled with stable inputs (R274, log 1). -/
structure Sample where
  byte : Byte
  word : Word
  deriving DecidableEq, Repr

structure State where
  /-- the parameters of R5 (00_scope.md): constant -/
  cfg : Cfg
  /-- the image of the device whose address bit 7 is held at 1 (R25, R29): constant -/
  imgHi : Memory
  /-- the image of the device whose address bit 7 is held at 0 (R25, R29): constant -/
  imgLo : Memory
  /-- the inputs now present, A[12:0] (R27, R29) -/
  addr : Addr13
  /-- the inputs the driver presents after these, in order: the model's own (R10, D22, log 2) -/
  pending : List Addr13
  /-- what the driver has sampled, oldest first: the model's own (R10, D22, log 24) -/
  trace : List Sample
  deriving DecidableEq, Repr

/-- No exception exists: "The complete table of exception causes of the block is therefore empty" (R240, D19). So there
is no constructor and nothing raises one (safe, log 19). -/
inductive Fault where
  deriving DecidableEq, Repr

/-- No refusal exists either (D19). The one constructor is what the host's interface asks for. -/
inductive Refusal where
  /-- An instruction without a meaning, by its mnemonic. Raised by nobody: every arm of `exec` has its meaning (safe). -/
  | notModelled (mnemonic : String)
  deriving DecidableEq, Repr

/-- The programmed block before the first read. The spec gives the images (R25, R30: the programmed image). It gives no
value for the inputs (R30: "unspecified by the source"): `addr` is 0 (DESIGN CHOICE, log 3). It gives no value for the
parameters: `cfg` is the reference instance (DESIGN CHOICE and PRESUMED, logs 4, 5, 6). `pending` and `trace` are the
driver's and empty (DESIGN CHOICE, log 24). -/
def State.reset : State :=
  { cfg := referenceCfg
    imgHi := []
    imgLo := []
    addr := 0#13
    pending := []
    trace := [] }

end Sys2Proof.Machine
end

