-- ==== Sys2Proof/Machine/Operands.lean ====
section
/-! DEFINITION. The operand forms: the five fields of the inputs now present (R71 of spec/30_encoding.md; R29 of
spec/10_state.md). There is no other operand: no immediate, no register, no memory operand (R77). -/

namespace Sys2Proof.Machine

/-- The fields on the address wires of a 13-bit address: its low ten bits decoded (R27, R73). -/
def wires (a : Addr13) : Fields := decodeFields (Addr13.low a)

/-- The micro-step input, A[2:0]. -/
def State.stepIn (s : State) : BitVec 3 := (wires s.addr).step

/-- The opcode input, A[6:3]. -/
def State.opcodeIn (s : State) : BitVec 4 := (wires s.addr).opcode

/-- The half selector, A[7]. -/
def State.halfIn (s : State) : Bool := (wires s.addr).half

/-- The carry input, A[8] (R22). -/
def State.carryIn (s : State) : Bool := (wires s.addr).carry

/-- The zero input, A[9] (R22). -/
def State.zeroIn (s : State) : Bool := (wires s.addr).zero

end Sys2Proof.Machine
end

