-- ==== Sys2Proof/Machine/Table.lean ====
section
/-! DEFINITION. The instruction table and `Lookup` (R110 to R115 of spec/40_lookup_engine.md): the corrected base table
of R111 (conflicts C3, C4 of spec/90_conflicts.md), one row per mnemonic. -/

namespace Sys2Proof.Machine

/-- A row of the table: the shared fetch at steps 0 and 1 (R112, R113), the row's own cells at steps 2 to 4, padding at
step 5 (R114). Steps 6 and 7 are outside the table's domain; the row is totalised there with UOP_NONE (R121, D11,
log 16). -/
def row (s2 s3 s4 : Uop) (step : BitVec 3) : Uop :=
  match step.toNat with
  | 0 => .fetch0
  | 1 => .fetch1
  | 2 => s2
  | 3 => s3
  | 4 => s4
  | _ => .none

def rowLda : BitVec 3 → Uop := row .marIr .aRam .none
def rowAdd : BitVec 3 → Uop := row .marIr .bRam .aluAdd
def rowSub : BitVec 3 → Uop := row .marIr .bRam .aluSub
def rowSta : BitVec 3 → Uop := row .marIr .ramA .none
def rowMvi : BitVec 3 → Uop := row .aIr .none .none
def rowInc : BitVec 3 → Uop := row .bIr .aluAdd .none
def rowDec : BitVec 3 → Uop := row .bIr .aluSub .none

/-- The base step-2 cell of JC is UOP_NONE. DEDUCED (C3, D4, log 8). -/
def rowJc : BitVec 3 → Uop := row .none .none .none

/-- The base step-2 cell of JNC is the parameter JNC_BASE2 (C4, D5, log 6). -/
def rowJnc (j : JncBase2) : BitVec 3 → Uop := row j.uop .none .none

/-- The base step-2 cell of JZ is UOP_NONE. DEDUCED (C3, D4, log 8). -/
def rowJz : BitVec 3 → Uop := row .none .none .none

def rowJnz : BitVec 3 → Uop := row .jump .none .none
def rowJmp : BitVec 3 → Uop := row .jump .none .none
def rowOut : BitVec 3 → Uop := row .outA .none .none
def rowHlt : BitVec 3 → Uop := row .halt .none .none
def rowNop : BitVec 3 → Uop := row .none .none .none
def rowCmp : BitVec 3 → Uop := row .marIr .bRam .cmp

/-- `Table[m][step]` (R111). -/
def table (j : JncBase2) : Mnemonic → BitVec 3 → Uop
  | .lda => rowLda | .add => rowAdd | .sub => rowSub | .sta => rowSta
  | .mvi => rowMvi | .inc => rowInc | .dec => rowDec | .jc => rowJc
  | .jnc => rowJnc j | .jz => rowJz | .jnz => rowJnz | .jmp => rowJmp
  | .out => rowOut | .hlt => rowHlt | .nop => rowNop | .cmp => rowCmp

/-- `Lookup(opcode, step)` (R110): the word of the table's cell. -/
def lookup (c : Cfg) (opcode : BitVec 4) (step : BitVec 3) : Word :=
  c.word (table c.jncBase2 (c.opc.mnemonicOf opcode) step)

end Sys2Proof.Machine
end

