-- ==== Sys2Proof/Machine/Flags.lean ====
section
/-! DEFINITION. Everything the block does with the flags: the flag-conditional override (R116, R117 of
spec/40_lookup_engine.md). The block holds no flag and computes none (R22, R127); it reads the two flag inputs, and some
of its words command the flags register outside to load (R22, R196). -/

namespace Sys2Proof.Machine

/-- `Override` (R116), applied at step 2 only: zero set promotes JZ to the table's JMP word and suppresses JNZ to the
table's NOP word; carry set promotes JC. JNC is never overridden, and the model does not repair it (U5, U6, log 6). -/
def override (c : Cfg) (opcode : BitVec 4) (step : BitVec 3) (carry zero : Bool) (base : Word) : Word :=
  if step = 2#3 then
    let afterZero :=
      if zero then
        if opcode = c.opc.num .jz then lookup c (c.opc.num .jmp) 2#3
        else if opcode = c.opc.num .jnz then lookup c (c.opc.num .nop) 2#3
        else base
      else base
    if carry && decide (opcode = c.opc.num .jc) then lookup c (c.opc.num .jmp) 2#3 else afterZero
  else base

/-- Whether a word commands the flags register outside the block to load (line FI; R22, R88). -/
def loadsFlags (c : Cfg) (w : Word) : Bool := asserts c .fi w

end Sys2Proof.Machine
end

