-- ==== Sys2Proof/Machine/Resolver.lean ====
section
/-! DEFINITION. The lookup engine composed: `Final` (R118), `Resolve` (R120), `RomByte` (R122) and `ControlWord` (R124)
of spec/40_lookup_engine.md. `Final` and `Resolve` are totalised at steps 6 and 7 (R121, D11, log 16). -/

namespace Sys2Proof.Machine

/-- `Final(opcode, step, carry, zero)` (R118): the table's word after any override. -/
def final (c : Cfg) (opcode : BitVec 4) (step : BitVec 3) (carry zero : Bool) : Word :=
  override c opcode step carry zero (lookup c opcode step)

/-- `Resolve(opcode, step, half, carry, zero)` (R120): the selected half of the final word. -/
def resolve (c : Cfg) (f : Fields) : Byte :=
  selectHalf f.half (final c f.opcode f.step f.carry f.zero)

/-- `RomByte(A)` (R122): the byte the specified image holds at a 13-bit address. Zero fill above the logical space and at
the filler steps 6 and 7; elsewhere the resolved byte. -/
def romByte (c : Cfg) (a : Addr13) : Byte :=
  if Addr13.logical a then
    let f := decodeFields (Addr13.low a)
    if hasContent f.step then resolve c f else 0#8
  else 0#8

/-- The address wires of the composite's two devices: the given inputs with `half` strapped and bits 12..10 held at 0
(R29, D9, D10). -/
def strapped (half : Bool) (opcode : BitVec 4) (step : BitVec 3) (carry zero : Bool) : Addr13 :=
  Addr10.physical (encodeFields ⟨step, opcode, half, carry, zero⟩)

/-- `ControlWord(opcode, step, carry, zero)` (R124): the two bytes the two devices present, high half first. -/
def controlWord (c : Cfg) (opcode : BitVec 4) (step : BitVec 3) (carry zero : Bool) : Word :=
  romByte c (strapped true opcode step carry zero) ++ romByte c (strapped false opcode step carry zero)

end Sys2Proof.Machine
end

