-- ==== Sys2Proof/Machine/Ops.lean ====
section
/-! DEFINITION. The operations the meanings share: an image as a memory (spec/20_memory.md), the two devices and the
composite (R27 to R29 of spec/10_state.md), the driver's moves (R10, D22), and one read.

TAKING AN EXCEPTION: there is no such operation, because "the block raises no exception" (R240), and neither is there a
return from one (R244, R245). -/

namespace Sys2Proof.Machine

/-! ## An image as a memory -/

/-- What an address that an image does not list reads as: the byte of the specified image (R25, R30, R122, log 9). -/
def unlisted (c : Cfg) (a : Nat) : Byte := romByte c (BitVec.ofNat 13 a)

/-- The cell of an address, if it is listed. -/
def Memory.listed : Memory → Nat → Option Byte
  | [], _ => none
  | (k, b) :: m, a => if k = a then some b else Memory.listed m a

/-- `MemRead(A, 1)` (R8): the byte a device holds at a 13-bit address; the only access width (R45). -/
def Memory.read (c : Cfg) (m : Memory) (a : Addr13) : Byte :=
  (Memory.listed m a.toNat).getD (unlisted c a.toNat)

/-- List a cell, keeping the order. -/
def Memory.put : Memory → Nat → Byte → Memory
  | [], a, v => [(a, v)]
  | (k, b) :: m, a, v =>
    if a < k then (a, v) :: (k, b) :: m
    else if a = k then (a, v) :: m
    else (k, b) :: Memory.put m a v

/-- Unlist a cell. -/
def Memory.remove (m : Memory) (a : Nat) : Memory := m.filter fun x => decide (x.1 ≠ a)

/-- `MemWrite(A, 1, v)` (R8): used by the off-line programming only (R53, R264). Writing what the address reads as when
unlisted unlists it, so that equal images are equal data. -/
def Memory.write (c : Cfg) (m : Memory) (a : Addr13) (v : Byte) : Memory :=
  if v = unlisted c a.toNat then Memory.remove m a.toNat else Memory.put m a.toNat v

/-- The canonical form: addresses strictly rising and below 8192, no cell equal to what its address reads as unlisted. -/
abbrev Memory.wf (c : Cfg) (m : Memory) : Prop :=
  m.Pairwise (fun x y => x.1 < y.1) ∧ ∀ x ∈ m, x.1 < 8192 ∧ x.2 ≠ unlisted c x.1

/-! ## The devices and the composite -/

/-- The image of the device strapped to a value of address bit 7 (R29). -/
def State.image (s : State) (half : Bool) : Memory := if half then s.imgHi else s.imgLo

/-- D[7:0] of one device at a 13-bit address (R28): the device whose strapped half is A[7] (log 15). -/
def State.deviceByte (s : State) (a : Addr13) : Byte :=
  Memory.read s.cfg (s.image (wires a).half) a

/-- cw[15:0] of the composite (R29): the high device at half = 1, the low device at half = 0, both on the same opcode,
step, carry and zero, both with bits 12..10 held at 0. -/
def State.compositeWord (s : State) (opcode : BitVec 4) (step : BitVec 3) (carry zero : Bool) : Word :=
  Memory.read s.cfg s.imgHi (strapped true opcode step carry zero) ++
    Memory.read s.cfg s.imgLo (strapped false opcode step carry zero)

/-- What the driver samples with an address on the wires: the selected device's byte, and the composite's word on the
same opcode, step, carry and zero wires (log 14). -/
def State.sampleAt (s : State) (a : Addr13) : Sample :=
  { byte := s.deviceByte a
    word := s.compositeWord (wires a).opcode (wires a).step (wires a).carry (wires a).zero }

/-- The live output D[7:0], a function of the inputs present (R28, R30). -/
def State.dataOut (s : State) : Byte := (s.sampleAt s.addr).byte

/-- The live output cw[15:0], a function of the inputs present (R29, R30). -/
def State.controlOut (s : State) : Word := (s.sampleAt s.addr).word

/-! ## The driver -/

/-- The driver notes a sample (R10, D22). -/
def State.observe (s : State) (x : Sample) : State := { s with trace := s.trace ++ [x] }

/-- The driver presents some inputs, the first now and the rest at the following steps; with none the inputs stay as they
are (R10, log 2). -/
def State.present (s : State) : List Addr13 → State
  | [] => s
  | a :: as => { s with addr := a, pending := as }

/-- The driver presents its next inputs. -/
def State.advance (s : State) : State := s.present s.pending

/-! ## One read -/

/-- One read of the block at an address: the driver samples its outputs. Nothing else changes (R46). Total: no address
faults (R240, R241). -/
def readAt (a : Addr13) (s : State) : Host.Outcome State Fault Refusal :=
  .next (s.observe (s.sampleAt a))

/-- The read an instruction is: at the address of its mnemonic under OPC and of its operands (R74, R82). -/
def readInstr (m : Mnemonic) (q : Operands) (s : State) : Host.Outcome State Fault Refusal :=
  readAt (encode s.cfg.opc (Instr.ofMnemonic q m)) s

end Sys2Proof.Machine
end

