-- ==== Sys2Proof/Machine/Immediate.lean ====
section
/-! DEFINITION. The immediate instructions MVI, INC, DEC (R170 to R172 of spec/42_immediate.md). Of each: its sequence,
the micro-operations its rule lists step by step, and its meaning, which is one read of the block: the bytes come from
the images, and where the images are the specified ones (`ImageOk`) the word sampled is the sequence's
(Certificates/Slice0/Obligations.lean). No instruction of the block writes anything (R46) and none raises an exception
(R240). -/

namespace Sys2Proof.Machine

/-- MVI's micro-operation at each step (R170). -/
def seqMvi (step : BitVec 3) : Uop :=
  match step.toNat with
  | 0 => .fetch0
  | 1 => .fetch1
  | 2 => .aIr
  | _ => .none

/-- MVI (R170): one read at OPC(MVI). -/
def execMvi (q : Operands) (s : State) : Host.Outcome State Fault Refusal :=
  readInstr .mvi q s

/-- INC's micro-operation at each step (R171). INC adds the immediate, not one. -/
def seqInc (step : BitVec 3) : Uop :=
  match step.toNat with
  | 0 => .fetch0
  | 1 => .fetch1
  | 2 => .bIr
  | 3 => .aluAdd
  | _ => .none

/-- INC (R171): one read at OPC(INC). -/
def execInc (q : Operands) (s : State) : Host.Outcome State Fault Refusal :=
  readInstr .inc q s

/-- DEC's micro-operation at each step (R172). DEC subtracts the immediate, not one. -/
def seqDec (step : BitVec 3) : Uop :=
  match step.toNat with
  | 0 => .fetch0
  | 1 => .fetch1
  | 2 => .bIr
  | 3 => .aluSub
  | _ => .none

/-- DEC (R172): one read at OPC(DEC). -/
def execDec (q : Operands) (s : State) : Host.Outcome State Fault Refusal :=
  readInstr .dec q s

end Sys2Proof.Machine
end

