-- ==== Sys2Proof/Machine/Jumps.lean ====
section
/-! DEFINITION. The jump instructions JMP, JC, JNC, JZ, JNZ (R190 to R196 of spec/43_jumps.md). Of each: its sequence,
the micro-operations its rule lists step by step, and its meaning, which is one read of the block: the bytes come from
the images, and where the images are the specified ones (`ImageOk`) the word sampled is the sequence's
(Certificates/Slice0/Obligations.lean). No instruction of the block writes anything (R46) and none raises an exception
(R240). -/

namespace Sys2Proof.Machine

/-- JMP's micro-operation at each step (R190). -/
def seqJmp (step : BitVec 3) : Uop :=
  match step.toNat with
  | 0 => .fetch0
  | 1 => .fetch1
  | 2 => .jump
  | _ => .none

/-- JMP (R190): one read at OPC(JMP). -/
def execJmp (q : Operands) (s : State) : Host.Outcome State Fault Refusal :=
  readInstr .jmp q s

/-- JC's micro-operation at each step (R191). -/
def seqJc (step : BitVec 3) (carry : Bool) : Uop :=
  match step.toNat with
  | 0 => .fetch0
  | 1 => .fetch1
  | 2 => if carry then .jump else .none
  | _ => .none

/-- JC (R191): one read at OPC(JC). -/
def execJc (q : Operands) (s : State) : Host.Outcome State Fault Refusal :=
  readInstr .jc q s

/-- JNC's micro-operation at each step (R192). No flag enters, whatever the name says. -/
def seqJnc (j : JncBase2) (step : BitVec 3) : Uop :=
  match step.toNat with
  | 0 => .fetch0
  | 1 => .fetch1
  | 2 => j.uop
  | _ => .none

/-- JNC (R192): one read at OPC(JNC). -/
def execJnc (q : Operands) (s : State) : Host.Outcome State Fault Refusal :=
  readInstr .jnc q s

/-- JZ's micro-operation at each step (R193). -/
def seqJz (step : BitVec 3) (zero : Bool) : Uop :=
  match step.toNat with
  | 0 => .fetch0
  | 1 => .fetch1
  | 2 => if zero then .jump else .none
  | _ => .none

/-- JZ (R193): one read at OPC(JZ). -/
def execJz (q : Operands) (s : State) : Host.Outcome State Fault Refusal :=
  readInstr .jz q s

/-- JNZ's micro-operation at each step (R194). -/
def seqJnz (step : BitVec 3) (zero : Bool) : Uop :=
  match step.toNat with
  | 0 => .fetch0
  | 1 => .fetch1
  | 2 => if zero then .none else .jump
  | _ => .none

/-- JNZ (R194): one read at OPC(JNZ). -/
def execJnz (q : Operands) (s : State) : Host.Outcome State Fault Refusal :=
  readInstr .jnz q s

end Sys2Proof.Machine
end

