-- ==== Sys2Proof/Machine/MemoryReference.lean ====
section
/-! DEFINITION. The memory-reference instructions LDA, ADD, SUB, STA, CMP (R150 to R154 of spec/41_memory_reference.md). Of each: its sequence,
the micro-operations its rule lists step by step, and its meaning, which is one read of the block: the bytes come from
the images, and where the images are the specified ones (`ImageOk`) the word sampled is the sequence's
(Certificates/Slice0/Obligations.lean). No instruction of the block writes anything (R46) and none raises an exception
(R240). -/

namespace Sys2Proof.Machine

/-- LDA's micro-operation at each step (R150). -/
def seqLda (step : BitVec 3) : Uop :=
  match step.toNat with
  | 0 => .fetch0
  | 1 => .fetch1
  | 2 => .marIr
  | 3 => .aRam
  | _ => .none

/-- LDA (R150): one read at OPC(LDA). -/
def execLda (q : Operands) (s : State) : Host.Outcome State Fault Refusal :=
  readInstr .lda q s

/-- ADD's micro-operation at each step (R151). -/
def seqAdd (step : BitVec 3) : Uop :=
  match step.toNat with
  | 0 => .fetch0
  | 1 => .fetch1
  | 2 => .marIr
  | 3 => .bRam
  | 4 => .aluAdd
  | _ => .none

/-- ADD (R151): one read at OPC(ADD). -/
def execAdd (q : Operands) (s : State) : Host.Outcome State Fault Refusal :=
  readInstr .add q s

/-- SUB's micro-operation at each step (R152). -/
def seqSub (step : BitVec 3) : Uop :=
  match step.toNat with
  | 0 => .fetch0
  | 1 => .fetch1
  | 2 => .marIr
  | 3 => .bRam
  | 4 => .aluSub
  | _ => .none

/-- SUB (R152): one read at OPC(SUB). -/
def execSub (q : Operands) (s : State) : Host.Outcome State Fault Refusal :=
  readInstr .sub q s

/-- STA's micro-operation at each step (R153). -/
def seqSta (step : BitVec 3) : Uop :=
  match step.toNat with
  | 0 => .fetch0
  | 1 => .fetch1
  | 2 => .marIr
  | 3 => .ramA
  | _ => .none

/-- STA (R153): one read at OPC(STA). -/
def execSta (q : Operands) (s : State) : Host.Outcome State Fault Refusal :=
  readInstr .sta q s

/-- CMP's micro-operation at each step (R154). -/
def seqCmp (step : BitVec 3) : Uop :=
  match step.toNat with
  | 0 => .fetch0
  | 1 => .fetch1
  | 2 => .marIr
  | 3 => .bRam
  | 4 => .cmp
  | _ => .none

/-- CMP (R154): one read at OPC(CMP). -/
def execCmp (q : Operands) (s : State) : Host.Outcome State Fault Refusal :=
  readInstr .cmp q s

end Sys2Proof.Machine
end

