-- ==== Sys2Proof/Machine/Misc.lean ====
section
/-! DEFINITION. The instructions OUT, HLT, NOP (R220 to R222 of spec/44_misc.md). Of each: its sequence,
the micro-operations its rule lists step by step, and its meaning, which is one read of the block: the bytes come from
the images, and where the images are the specified ones (`ImageOk`) the word sampled is the sequence's
(Certificates/Slice0/Obligations.lean). No instruction of the block writes anything (R46) and none raises an exception
(R240). -/

namespace Sys2Proof.Machine

/-- OUT's micro-operation at each step (R220). -/
def seqOut (step : BitVec 3) : Uop :=
  match step.toNat with
  | 0 => .fetch0
  | 1 => .fetch1
  | 2 => .outA
  | _ => .none

/-- OUT (R220): one read at OPC(OUT). -/
def execOut (q : Operands) (s : State) : Host.Outcome State Fault Refusal :=
  readInstr .out q s

/-- HLT's micro-operation at each step (R221). The block only asserts the halt line; it does not stop and answers every later read. -/
def seqHlt (step : BitVec 3) : Uop :=
  match step.toNat with
  | 0 => .fetch0
  | 1 => .fetch1
  | 2 => .halt
  | _ => .none

/-- HLT (R221): one read at OPC(HLT). -/
def execHlt (q : Operands) (s : State) : Host.Outcome State Fault Refusal :=
  readInstr .hlt q s

/-- NOP's micro-operation at each step (R222). -/
def seqNop (step : BitVec 3) : Uop :=
  match step.toNat with
  | 0 => .fetch0
  | 1 => .fetch1
  | _ => .none

/-- NOP (R222): one read at OPC(NOP). -/
def execNop (q : Operands) (s : State) : Host.Outcome State Fault Refusal :=
  readInstr .nop q s

end Sys2Proof.Machine
end

