-- ==== Sys2Proof/Machine/Dispatch.lean ====
section
/-! DEFINITION. The dispatch: one arm per instruction. -/

namespace Sys2Proof.Machine

def exec (i : Instr) (s : State) : Host.Outcome State Fault Refusal :=
  match i with
  | .lda q => Sys2Proof.Machine.execLda q s
  | .add q => Sys2Proof.Machine.execAdd q s
  | .sub q => Sys2Proof.Machine.execSub q s
  | .sta q => Sys2Proof.Machine.execSta q s
  | .mvi q => Sys2Proof.Machine.execMvi q s
  | .inc q => Sys2Proof.Machine.execInc q s
  | .dec q => Sys2Proof.Machine.execDec q s
  | .jc q => Sys2Proof.Machine.execJc q s
  | .jnc q => Sys2Proof.Machine.execJnc q s
  | .jz q => Sys2Proof.Machine.execJz q s
  | .jnz q => Sys2Proof.Machine.execJnz q s
  | .jmp q => Sys2Proof.Machine.execJmp q s
  | .out q => Sys2Proof.Machine.execOut q s
  | .hlt q => Sys2Proof.Machine.execHlt q s
  | .nop q => Sys2Proof.Machine.execNop q s
  | .cmp q => Sys2Proof.Machine.execCmp q s

end Sys2Proof.Machine
end

