-- ==== Sys2Proof/Machine/Step.lean ====
section
/-! DEFINITION. One step: one read sampled with the inputs present (R10 of spec/00_scope.md, R274, D22, log 1). The
block fetches nothing: the word "at the program counter" is the address on its wires. -/

namespace Sys2Proof.Machine

/-- The inputs present select an instruction, which runs; or they are above the logical space, which reads the zero fill
and is no fault (R85, R241, log 14). In both cases the driver has presented its next inputs when the step ends. -/
def step (s : State) : Host.Outcome State Fault Refusal :=
  match decode s.cfg.opc s.addr with
  | .ok i => exec i s.advance
  | .error _ => readAt s.addr s.advance

/-- The driver puts a word on the address wires, so that the next step reads exactly it (log 13). -/
def State.withFetchWord (s : State) (nbits w : Nat) : State :=
  { s with addr := BitVec.ofNat 13 (w % 2 ^ nbits) }

end Sys2Proof.Machine
end

