-- ==== Sys2Proof/Machine/Generate.lean ====
section
/-! DEFINITION. Programming the image, before operation: `Generate` (R263 to R268 of spec/70_reset_and_hazards.md) and
the two faults of the generator that decide whether the image is the specified one (R248, R249 of
spec/60_exceptions.md). No step of the machine calls it (R31, R53, D18, log 20). -/

namespace Sys2Proof.Machine

/-- A generated image and the log of its partial-write faults: address and value of each (R249). -/
structure Generated where
  image : Memory
  log : List (Addr13 × Byte)
  deriving DecidableEq, Repr

/-- Whether a fault was logged at an address. -/
def logged (log : List (Addr13 × Byte)) (a : Addr13) : Bool := log.any fun x => decide (x.1 = a)

/-- One write to the sink (R249). `faults` lists the addresses at which the write does not fully complete: such a write is
logged, once, and generation goes on. `left` is one free byte per address (R250, U1, log 25): an address logged in this
run, by this write or an earlier one, holds its free byte whatever is written there, so that it may hold any byte, never
a fixed one. At any other address the value is stored. -/
def writeAt (c : Cfg) (faults : List Addr13) (left : Addr13 → Byte) (g : Generated) (a : Addr13) (v : Byte) :
    Generated :=
  let log := if a ∈ faults then g.log ++ [(a, v)] else g.log
  { image := Memory.write c g.image a (if logged log a then left a else v), log := log }

/-- The addresses 0 .. n-1 as physical addresses. -/
def addressesBelow (n : Nat) : List Addr13 := (List.range n).map (BitVec.ofNat 13)

/-- Step 1: zero-fill the full physical capacity (R264). -/
def zeroFill (c : Cfg) (faults : List Addr13) (left : Addr13 → Byte) (g : Generated) : Generated :=
  (addressesBelow 8192).foldl (fun g a => writeAt c faults left g a 0#8) g

/-- Step 2 at one address: skip a filler step, else write the resolved byte (R264). -/
def writeContent (c : Cfg) (faults : List Addr13) (left : Addr13 → Byte) (g : Generated) (a : Addr13) : Generated :=
  if hasContent (wires a).step then writeAt c faults left g a (resolve c (wires a)) else g

/-- Step 2 over some addresses in some order. -/
def writeContents (c : Cfg) (faults : List Addr13) (left : Addr13 → Byte) (as : List Addr13) (g : Generated) :
    Generated :=
  as.foldl (writeContent c faults left) g

/-- `Generate` (R264) on a device that held anything before: the fill over 0..8191, then the content over 0..1023. A sink
that cannot be opened is a configuration fault: no image (R248). `badFill` and `badContent` are the addresses of each
pass whose write does not complete (R249), and `left` the byte each address holds if it is logged (R250). -/
def generate (c : Cfg) (opens : Bool) (badFill badContent : List Addr13) (left : Addr13 → Byte) (before : Memory) :
    Option Generated :=
  if opens then
    some (writeContents c badContent left (addressesBelow 1024) (zeroFill c badFill left ⟨before, []⟩))
  else none

end Sys2Proof.Machine
end

