-- ==== Sys2Proof/Machine/Sequences.lean ====
section
/-! DEFINITION. The sixteen family sequences as one function: the micro-operation the family files (spec/41 to 44) give
for a mnemonic, step and flags. It is written apart from the table and the override of the lookup engine (spec/40), so
that the two can be compared. -/

namespace Sys2Proof.Machine

/-- The micro-operation the family rules give (R150 to R154, R170 to R172, R190 to R194, R220 to R222). -/
def microOp (j : JncBase2) (m : Mnemonic) (step : BitVec 3) (carry zero : Bool) : Uop :=
  match m with
  | .lda => seqLda step
  | .add => seqAdd step
  | .sub => seqSub step
  | .sta => seqSta step
  | .mvi => seqMvi step
  | .inc => seqInc step
  | .dec => seqDec step
  | .jc => seqJc step carry
  | .jnc => seqJnc j step
  | .jz => seqJz step zero
  | .jnz => seqJnz step zero
  | .jmp => seqJmp step
  | .out => seqOut step
  | .hlt => seqHlt step
  | .nop => seqNop step
  | .cmp => seqCmp step

/-- The tuples (mnemonic, step, carry, zero) of the census (R130): 16 x 8 x 4. -/
def censusTuples : List (Mnemonic × BitVec 3 × Bool × Bool) :=
  Mnemonic.all.flatMap fun m => (List.range 8).flatMap fun k =>
    [false, true].flatMap fun cf => [false, true].map fun zf => (m, BitVec.ofNat 3 k, cf, zf)

/-- How many of the 512 tuples give a micro-operation (R130). -/
def census (j : JncBase2) (u : Uop) : Nat :=
  censusTuples.countP fun (m, k, cf, zf) => decide (microOp j m k cf zf = u)

end Sys2Proof.Machine
end

