-- ==== Sys2Proof/Safety.lean ====
section
/-! DEFINITION. What counts as a safe run: the premise `ImageOk` of R267, the invariant of the model, and what a trace
may hold. -/

namespace Sys2Proof.Machine

/-- `ImageOk` (R267): both devices hold the specified image at every address. It is the named premise of every rule about
what a device presents (D13, log 11). -/
def ImageOk (s : State) : Prop :=
  ∀ a : Addr13, Memory.read s.cfg s.imgHi a = romByte s.cfg a ∧ Memory.read s.cfg s.imgLo a = romByte s.cfg a

/-- The invariant: both images are in canonical form, and both devices hold the same image (R25, R266). -/
def StateInv (s : State) : Prop :=
  Memory.wf s.cfg s.imgHi ∧ Memory.wf s.cfg s.imgLo ∧ s.imgHi = s.imgLo

/-- What the specified block answers with an address on the wires: `RomByte` of it (R122), and `ControlWord` of its
opcode, step, carry and zero (R124). -/
def specSample (c : Cfg) (a : Addr13) : Sample :=
  { byte := romByte c a
    word := controlWord c (wires a).opcode (wires a).step (wires a).carry (wires a).zero }

/-- The sample of a control word by a reader that selects a half (R120). -/
def sampleOf (half : Bool) (w : Word) : Sample := { byte := selectHalf half w, word := w }

/-- A sequence given by its defined steps, from step 0 on; every later step is padding or filler (R114, R123). -/
def uopAt (us : List Uop) (step : BitVec 3) : Uop := us.getD step.toNat .none

/-- Every word sampled is the word of one of the micro-operations of R89. -/
def TraceOfUops (s : State) : Prop := ∀ x ∈ s.trace, ∃ u, x.word = s.cfg.word u

/-- An outcome that is a next state: the only one the block has (R240). -/
def Completes (o : Host.Outcome State Fault Refusal) : Prop := ∃ t, o = .next t

end Sys2Proof.Machine
end

