-- ==== Sys2Proof/Certificates/Slice0/Obligations.lean ====
section
/-! DEFINITION. The statements for the provers. Every statement about a configuration holds for every value of the
parameters OPC, LINE_BIT, CW and JNC_BASE2 of R5 (they are fields of `Cfg`), unless its docstring says otherwise. In
every statement about `exec`, `step` or a run, an instruction or a step is one read sampled by the driver of R10: that is
the model's own reading of "running" the block (DESIGN CHOICE, log 1). -/

open Sys2Proof Sys2Proof.Machine

/-- For every 10-bit address a, Encode(Decode(a)) = a, and for every tuple f of fields, Decode(Encode(f)) = f.
(R75.) -/
def Obligations.AddressRoundTrip : Prop :=
  (∀ a : Addr10, encodeFields (decodeFields a) = a) ∧ ∀ f : Fields, decodeFields (encodeFields f) = f

/-- For every 10-bit address, Decode gives step = a & 0b111, opcode = (a >> 3) & 0b1111, half = (a >> 7) & 1, carry
= (a >> 8) & 1, zero = (a >> 9) & 1; for every tuple of fields, Encode is (zero << 9) | (carry << 8) | (half << 7) |
(opcode << 3) | step. (R73; R74.) -/
def Obligations.DecodeIsTheMasksEncodeTheShifts : Prop :=
  (∀ a : Addr10,
    (decodeFields a).step.setWidth 10 = a &&& 0b111#10 ∧
    (decodeFields a).opcode.setWidth 10 = (a >>> 3) &&& 0b1111#10 ∧
    (BitVec.ofBool (decodeFields a).half).setWidth 10 = (a >>> 7) &&& 1#10 ∧
    (BitVec.ofBool (decodeFields a).carry).setWidth 10 = (a >>> 8) &&& 1#10 ∧
    (BitVec.ofBool (decodeFields a).zero).setWidth 10 = (a >>> 9) &&& 1#10) ∧
  ∀ f : Fields, encodeFields f =
    ((BitVec.ofBool f.zero).setWidth 10 <<< 9) ||| ((BitVec.ofBool f.carry).setWidth 10 <<< 8) |||
      ((BitVec.ofBool f.half).setWidth 10 <<< 7) ||| (f.opcode.setWidth 10 <<< 3) ||| f.step.setWidth 10

/-- For every numbering OPC and every instruction with operands of any value, the decoder reads from the
instruction's address exactly that instruction. (R74; R75; R80; R82.) -/
def Obligations.DecodeEncodeInstruction : Prop :=
  ∀ (o : Opc) (i : Instr), decode o (encode o i) = .ok i

/-- For every numbering OPC, if a 13-bit address decodes to an instruction then encoding the instruction gives that
address. (R72; R75; R82.) -/
def Obligations.EncodeDecodeInstruction : Prop :=
  ∀ (o : Opc) (a : Addr13) (i : Instr), decode o a = .ok i → encode o i = a

/-- For every numbering OPC and 10-bit address a there is exactly one mnemonic m with (a & 0x078) = (OPC(m) << 3),
and it is the mnemonic of the opcode field of a. (R82 of 30_encoding.md; R72.) -/
def Obligations.EveryAddressBelongsToOneMnemonic : Prop :=
  ∀ (o : Opc) (a : Addr10),
    (∃! m : Mnemonic, a &&& 0x078#10 = (o.num m).setWidth 10 <<< 3) ∧
    ∀ m : Mnemonic, a &&& 0x078#10 = (o.num m).setWidth 10 <<< 3 ↔ o.mnemonicOf (decodeFields a).opcode = m

/-- For every numbering OPC, a 13-bit address decodes to some instruction exactly when it is below 1024 (no opcode
is illegal), and otherwise the decoder answers aboveLogicalSpace. That the decoder rejects such an address, and by
that name, is the model's choice (DESIGN CHOICE, log 12): the spec says only that it is filler and is not decoded.
(R76; R83; R85.) -/
def Obligations.DecodeAnswersExactlyBelow1024 : Prop :=
  ∀ (o : Opc) (a : Addr13),
    ((∃ i, decode o a = .ok i) ↔ a.toNat < 1024) ∧
    (1024 ≤ a.toNat → decode o a = .error .aboveLogicalSpace)

/-- The words zch0000sss to zch1111sss of LDA, INC, JC, JZ, HLT and CMP with operand bits set as written decode to
those instructions with those operands (numbered by OPC_REF, the spec's own reference choice, D2, log 4). (R81;
R71.) -/
def Obligations.TableWordsDecodeToTheirRows : Prop :=
  decodeTableWord 16 0b0010000011 = some (.lda ⟨3#3, true, false, false⟩) ∧
    decodeTableWord 16 0b0100101011 = some (.inc ⟨3#3, false, true, false⟩) ∧
    decodeTableWord 16 0b0110111010 = some (.jc ⟨2#3, true, true, false⟩) ∧
    decodeTableWord 16 0b1001001010 = some (.jz ⟨2#3, false, false, true⟩) ∧
    decodeTableWord 16 0b1111101111 = some (.hlt ⟨7#3, true, true, true⟩) ∧
    decodeTableWord 16 0b0001111100 = some (.cmp ⟨4#3, false, false, false⟩)

/-- For each value of JNC_BASE2, the rows of the table at steps 0 to 5, in the order of the mnemonics, are the
sixteen rows of the corrected table of R111. That the base step-2 word of JC and of JZ is UOP_NONE is no rule of the
source but the spec's own decision (C3, D4), DEDUCED in this model (log 8, unsafe). The cell of JNC is the parameter
JNC_BASE2. (R111; R112; R113; R114; D4 of 92_eei_decisions.md.) -/
def Obligations.TheTableIsTheSpecs : Prop :=
  ∀ j : JncBase2, Mnemonic.all.map (fun m => (List.range 6).map fun k => table j m (BitVec.ofNat 3 k)) =
    [ [.fetch0, .fetch1, .marIr, .aRam, .none, .none],
      [.fetch0, .fetch1, .marIr, .bRam, .aluAdd, .none],
      [.fetch0, .fetch1, .marIr, .bRam, .aluSub, .none],
      [.fetch0, .fetch1, .marIr, .ramA, .none, .none],
      [.fetch0, .fetch1, .aIr, .none, .none, .none],
      [.fetch0, .fetch1, .bIr, .aluAdd, .none, .none],
      [.fetch0, .fetch1, .bIr, .aluSub, .none, .none],
      [.fetch0, .fetch1, .none, .none, .none, .none],
      [.fetch0, .fetch1, j.uop, .none, .none, .none],
      [.fetch0, .fetch1, .none, .none, .none, .none],
      [.fetch0, .fetch1, .jump, .none, .none, .none],
      [.fetch0, .fetch1, .jump, .none, .none, .none],
      [.fetch0, .fetch1, .outA, .none, .none, .none],
      [.fetch0, .fetch1, .halt, .none, .none, .none],
      [.fetch0, .fetch1, .none, .none, .none, .none],
      [.fetch0, .fetch1, .marIr, .bRam, .cmp, .none] ]

/-- For every mnemonic m and step, Lookup at the number OPC(m) is CW of the table's cell (m, step); and every opcode
number is some mnemonic's, so Lookup is defined at every opcode. At steps 6 and 7, where the spec gives Lookup and
Final no value, the zero word is the model's totalisation (D11, DEDUCED, log 16). (R110; D11 of
92_eei_decisions.md.) -/
def Obligations.LookupReadsTheTable : Prop :=
  ∀ c : Cfg,
    (∀ (m : Mnemonic) (step : BitVec 3), lookup c (c.opc.num m) step = c.word (table c.jncBase2 m step)) ∧
    ∀ opcode : BitVec 4, ∃ m, c.opc.num m = opcode

/-- For every opcode, carry, zero and half: Final at step 0 is CW(UOP_FETCH0) and at step 1 is CW(UOP_FETCH1), and
Resolve gives the half of that word which half selects. (R125.) -/
def Obligations.FetchLaw : Prop :=
  ∀ (c : Cfg) (opcode : BitVec 4) (half carry zero : Bool),
    final c opcode 0#3 carry zero = c.word .fetch0 ∧
    final c opcode 1#3 carry zero = c.word .fetch1 ∧
    resolve c ⟨0#3, opcode, half, carry, zero⟩ = (if half then hiByte (c.word .fetch0) else loByte (c.word .fetch0)) ∧
    resolve c ⟨1#3, opcode, half, carry, zero⟩ = (if half then hiByte (c.word .fetch1) else loByte (c.word .fetch1))

/-- For every configuration, flags and opcode: away from step 2 Final is Lookup; at step 2, JZ gives CW(UOP_JUMP) if
zero else 0, JNZ gives 0 if zero else CW(UOP_JUMP), JC gives CW(UOP_JUMP) if carry else 0, JNC gives CW(JNC_BASE2),
and any other opcode gives Lookup at step 2. That the base step-2 word of JC and of JZ is UOP_NONE is no rule of the
source but the spec's own decision (C3, D4), DEDUCED in this model (log 8, unsafe). At steps 6 and 7, where the spec
gives Lookup and Final no value, the zero word is the model's totalisation (D11, DEDUCED, log 16). (R118; R111; D4
of 92_eei_decisions.md; D11 of 92_eei_decisions.md.) -/
def Obligations.FinalWordByCases : Prop :=
  ∀ (c : Cfg) (carry zero : Bool),
    (∀ (opcode : BitVec 4) (step : BitVec 3), step ≠ 2#3 → final c opcode step carry zero = lookup c opcode step) ∧
    final c (c.opc.num .jz) 2#3 carry zero = (if zero then c.word .jump else 0#16) ∧
    final c (c.opc.num .jnz) 2#3 carry zero = (if zero then 0#16 else c.word .jump) ∧
    final c (c.opc.num .jc) 2#3 carry zero = (if carry then c.word .jump else 0#16) ∧
    final c (c.opc.num .jnc) 2#3 carry zero = c.word c.jncBase2.uop ∧
    ∀ opcode : BitVec 4, opcode ≠ c.opc.num .jz → opcode ≠ c.opc.num .jnz → opcode ≠ c.opc.num .jc →
      final c opcode 2#3 carry zero = lookup c opcode 2#3

/-- resolve(JZ, 2, half, carry, 1) = resolve(JMP, 2, half, carry, 1); resolve(JNZ, 2, half, carry, 1) = resolve(NOP,
2, half, carry, 1); resolve(JC, 2, half, 1, zero) = resolve(JMP, 2, half, 1, zero); for both values of half and of
the free flag. (R126.) -/
def Obligations.JumpLaws : Prop :=
  ∀ (c : Cfg) (half flag : Bool),
    resolve c ⟨2#3, c.opc.num .jz, half, flag, true⟩ = resolve c ⟨2#3, c.opc.num .jmp, half, flag, true⟩ ∧
    resolve c ⟨2#3, c.opc.num .jnz, half, flag, true⟩ = resolve c ⟨2#3, c.opc.num .nop, half, flag, true⟩ ∧
    resolve c ⟨2#3, c.opc.num .jc, half, true, flag⟩ = resolve c ⟨2#3, c.opc.num .jmp, half, true, flag⟩

/-- Final does not change with zero unless step is 2 and the opcode is JZ or JNZ; it does not change with carry
unless step is 2 and the opcode is JC; and where CW(UOP_JUMP) is not zero, each of those three words does change
with its flag. That the words of JC and JZ do change with their flag holds only under their base words: that the
base step-2 word of JC and of JZ is UOP_NONE is no rule of the source but the spec's own decision (C3, D4), DEDUCED
in this model (log 8, unsafe). At steps 6 and 7, where the spec gives Lookup and Final no value, the zero word is
the model's totalisation (D11, DEDUCED, log 16). (R119; D4 of 92_eei_decisions.md; D11 of 92_eei_decisions.md.) -/
def Obligations.FlagsMatterOnlyForThreeJumps : Prop :=
  ∀ (c : Cfg) (opcode : BitVec 4) (step : BitVec 3),
    (¬(step = 2#3 ∧ (opcode = c.opc.num .jz ∨ opcode = c.opc.num .jnz)) →
      ∀ carry zero zero' : Bool, final c opcode step carry zero = final c opcode step carry zero') ∧
    (¬(step = 2#3 ∧ opcode = c.opc.num .jc) →
      ∀ carry carry' zero : Bool, final c opcode step carry zero = final c opcode step carry' zero) ∧
    (c.word .jump ≠ 0#16 → ∀ flag : Bool,
      final c (c.opc.num .jz) 2#3 flag true ≠ final c (c.opc.num .jz) 2#3 flag false ∧
      final c (c.opc.num .jnz) 2#3 flag true ≠ final c (c.opc.num .jnz) 2#3 flag false ∧
      final c (c.opc.num .jc) 2#3 true flag ≠ final c (c.opc.num .jc) 2#3 false flag)

/-- At step 2 the override equals the one that makes the carry test first and the zero test after it on its result;
no opcode is both JC and one of JZ, JNZ; with both flags set JZ and JC are promoted to Lookup(JMP, 2) and JNZ is
suppressed to Lookup(NOP, 2). (R117.) -/
def Obligations.OverrideBranchesAreExclusive : Prop :=
  ∀ (c : Cfg) (base : Word),
    (∀ (opcode : BitVec 4) (carry zero : Bool), override c opcode 2#3 carry zero base =
      (let w := if carry = true ∧ opcode = c.opc.num .jc then lookup c (c.opc.num .jmp) 2#3 else base
       if zero = true ∧ opcode = c.opc.num .jz then lookup c (c.opc.num .jmp) 2#3
       else if zero = true ∧ opcode = c.opc.num .jnz then lookup c (c.opc.num .nop) 2#3
       else w)) ∧
    c.opc.num .jc ≠ c.opc.num .jz ∧ c.opc.num .jc ≠ c.opc.num .jnz ∧
    override c (c.opc.num .jz) 2#3 true true base = lookup c (c.opc.num .jmp) 2#3 ∧
    override c (c.opc.num .jnz) 2#3 true true base = lookup c (c.opc.num .nop) 2#3 ∧
    override c (c.opc.num .jc) 2#3 true true base = lookup c (c.opc.num .jmp) 2#3

/-- RomByte is 0x00 where any of A[12:10] is set, 0x00 where the step field is 6 or 7, and otherwise Resolve of the
decoded fields. (R122.) -/
def Obligations.RomByteByRegion : Prop :=
  ∀ (c : Cfg) (a : Addr13),
    (a.extractLsb' 10 3 ≠ 0#3 → romByte c a = 0#8) ∧
    (a.extractLsb' 10 3 = 0#3 → 6 ≤ (decodeFields (a.extractLsb' 0 10)).step.toNat → romByte c a = 0#8) ∧
    (a.extractLsb' 10 3 = 0#3 → (decodeFields (a.extractLsb' 0 10)).step.toNat ≤ 5 →
      romByte c a = resolve c (decodeFields (a.extractLsb' 0 10)))

/-- For every configuration, every address from 1024 to 8191 reads 0x00, every address below 1024 whose value modulo
8 is 6 or 7 reads 0x00; and of the addresses below 1024, 768 have a step of 0 to 5 and 256 a step of 6 or 7. (R47;
R48; R49.) -/
def Obligations.ZeroFillAboveAndAtFillerSteps : Prop :=
  (∀ (c : Cfg) (a : Addr13), 1024 ≤ a.toNat → romByte c a = 0#8) ∧
    (∀ (c : Cfg) (a : Addr13), a.toNat < 1024 → 6 ≤ a.toNat % 8 → romByte c a = 0#8) ∧
    (∀ (c : Cfg) (a : Addr13), a.toNat < 1024 → a.toNat % 8 ≤ 5 → romByte c a = resolve c (wires a)) ∧
    (List.range 1024).countP (fun n => decide (n % 8 ≤ 5)) = 768 ∧
    (List.range 1024).countP (fun n => decide (6 ≤ n % 8)) = 256 ∧
    (List.range 8192).countP (fun n => decide (1024 ≤ n)) = 7168

/-- For every opcode and flags, ControlWord (the two ROM bytes put together) equals Final at a step of 0 to 5, and
0x0000 at steps 6 and 7. (R124.) -/
def Obligations.ControlWordIsTheFinalWord : Prop :=
  ∀ (c : Cfg) (opcode : BitVec 4) (step : BitVec 3) (carry zero : Bool),
    controlWord c opcode step carry zero =
      romByte c ((encodeFields ⟨step, opcode, true, carry, zero⟩).setWidth 13) ++
        romByte c ((encodeFields ⟨step, opcode, false, carry, zero⟩).setWidth 13) ∧
    (step.toNat ≤ 5 → controlWord c opcode step carry zero = final c opcode step carry zero) ∧
    (6 ≤ step.toNat → controlWord c opcode step carry zero = 0#16)

/-- For every step 0 to 5, opcode and flags, the image holds the low byte of Final at the address with half = 0 and
its high byte at the address with half = 1, and the second address is the first plus 128. (R43.) -/
def Obligations.ByteOrderIsLowThenHigh128Apart : Prop :=
  ∀ (c : Cfg) (opcode : BitVec 4) (step : BitVec 3) (carry zero : Bool), step.toNat ≤ 5 →
    romByte c (Addr10.physical (encodeFields ⟨step, opcode, false, carry, zero⟩)) =
      (final c opcode step carry zero).extractLsb' 0 8 ∧
    romByte c (Addr10.physical (encodeFields ⟨step, opcode, true, carry, zero⟩)) =
      (final c opcode step carry zero).extractLsb' 8 8 ∧
    (encodeFields ⟨step, opcode, true, carry, zero⟩).toNat =
      (encodeFields ⟨step, opcode, false, carry, zero⟩).toNat + 128

/-- For every opcode number v, the byte at v << 3 is the low byte of CW(UOP_FETCH0) and the byte at 0x080 | (v << 3)
is its high byte. (R129.) -/
def Obligations.StepZeroBytesAreTheFetchWord : Prop :=
  ∀ (c : Cfg) (v : BitVec 4),
    romByte c (v.setWidth 13 <<< 3) = loByte (c.word .fetch0) ∧
    romByte c (0x080#13 ||| (v.setWidth 13 <<< 3)) = hiByte (c.word .fetch0)

/-- For every configuration, mnemonic, step 0 to 7 and flags, the composite control word read through table,
override, byte selection and image equals the word of the micro-operation that the family rules (R150 to R154, R170
to R172, R190 to R194, R220 to R222) give. That the base step-2 word of JC and of JZ is UOP_NONE is no rule of the
source but the spec's own decision (C3, D4), DEDUCED in this model (log 8, unsafe). (R124; R150 to R154; R170 to
R172; R190 to R194; R220 to R222; D4 of 92_eei_decisions.md.) -/
def Obligations.EngineEmitsTheFamilySequences : Prop :=
  ∀ (c : Cfg) (m : Mnemonic) (step : BitVec 3) (carry zero : Bool),
    controlWord c (c.opc.num m) step carry zero = c.word (microOp c.jncBase2 m step carry zero)

/-- Over the 512 tuples (mnemonic, step 0 to 7, carry, zero), counted by micro-operation, the counts are those of
R130 for both values of JNC_BASE2, and UOP_JUMP is JMP's 4 times, JNZ's 2, JZ's 2 and JC's 2. The count is one of
the image: for every configuration the control word read at each tuple is the word of the micro-operation counted
there; and where the fifteen words differ from each other, the number of tuples at which the control word read
equals CW(u) is the count of u. That the base step-2 word of JC and of JZ is UOP_NONE is no rule of the source but
the spec's own decision (C3, D4), DEDUCED in this model (log 8, unsafe). (R130 of 40_lookup_engine.md; D4 of
92_eei_decisions.md.) -/
def Obligations.CensusOfTheImage : Prop :=
  Uop.all.map (census .uopNone) = [294, 64, 64, 20, 4, 12, 8, 8, 4, 4, 8, 10, 4, 4, 4] ∧
    Uop.all.map (census .uopJump) = [290, 64, 64, 20, 4, 12, 8, 8, 4, 4, 8, 14, 4, 4, 4] ∧
    ([Mnemonic.jmp, .jnz, .jz, .jc].map fun m => censusTuples.countP fun (n, k, cf, zf) =>
      decide (n = m ∧ microOp .uopNone n k cf zf = .jump)) = [4, 2, 2, 2] ∧
    censusTuples.length = 512 ∧ censusTuples.Nodup ∧
    (∀ c : Cfg, ∀ x ∈ censusTuples,
      controlWord c (c.opc.num x.1) x.2.1 x.2.2.1 x.2.2.2 =
        c.word (microOp c.jncBase2 x.1 x.2.1 x.2.2.1 x.2.2.2)) ∧
    ∀ c : Cfg, (∀ u v : Uop, c.word u = c.word v → u = v) → ∀ u : Uop,
      (censusTuples.countP fun (m, k, cf, zf) =>
        decide (controlWord c (c.opc.num m) k cf zf = c.word u)) = census c.jncBase2 u

/-- At step 2 the composite word is CW(UOP_JUMP) for JMP; CW(UOP_JUMP) for JC exactly when carry is set, for JZ
exactly when zero is set, for JNZ exactly when zero is clear, and 0x0000 otherwise; CW(JNC_BASE2) for JNC. At any
other step the five give the same word: fetch at 0 and 1, 0x0000 at 3 to 7. That the base step-2 word of JC and of
JZ is UOP_NONE is no rule of the source but the spec's own decision (C3, D4), DEDUCED in this model (log 8, unsafe).
(R195; D4 of 92_eei_decisions.md.) -/
def Obligations.JumpFamilyTruthTable : Prop :=
  ∀ (c : Cfg) (carry zero : Bool),
    controlWord c (c.opc.num .jmp) 2#3 carry zero = c.word .jump ∧
    controlWord c (c.opc.num .jc) 2#3 carry zero = (if carry then c.word .jump else 0#16) ∧
    controlWord c (c.opc.num .jnc) 2#3 carry zero = c.word c.jncBase2.uop ∧
    controlWord c (c.opc.num .jz) 2#3 carry zero = (if zero then c.word .jump else 0#16) ∧
    controlWord c (c.opc.num .jnz) 2#3 carry zero = (if zero then 0#16 else c.word .jump) ∧
    ∀ m ∈ [Mnemonic.jmp, .jc, .jnc, .jz, .jnz],
      controlWord c (c.opc.num m) 0#3 carry zero = c.word .fetch0 ∧
      controlWord c (c.opc.num m) 1#3 carry zero = c.word .fetch1 ∧
      ∀ step : BitVec 3, 3 ≤ step.toNat → controlWord c (c.opc.num m) step carry zero = 0#16

/-- Under JNC_BASE2 = UOP_NONE the words of JNC at all steps and flags are those of NOP; under UOP_JUMP they are
those of JMP; under either they do not change with carry or zero. (R192 of 43_jumps.md; R272.) -/
def Obligations.JncIsNopOrJmp : Prop :=
  ∀ (c : Cfg) (step : BitVec 3) (carry zero carry' zero' : Bool),
    controlWord c (c.opc.num .jnc) step carry zero =
      controlWord c (c.opc.num (match c.jncBase2 with | .uopNone => .nop | .uopJump => .jmp)) step carry zero ∧
    controlWord c (c.opc.num .jnc) step carry zero = controlWord c (c.opc.num .jnc) step carry' zero'

/-- For every configuration and micro-operation u, CW(u) is the bitwise OR of the one-bit flags of the lines in
Lines(u), Lines(UOP_NONE) is empty, and the flag of a line asserts that line and no other. (R91.) -/
def Obligations.EveryWordIsTheOrOfItsLineFlags : Prop :=
  ∀ c : Cfg,
    (∀ u : Uop, c.word u = orOfFlags c (linesOf c u)) ∧
    linesOf c .none = [] ∧
    ∀ l k : Line, asserts c k (lineFlag c l) = decide (k = l)

/-- In every state whose images are the specified ones, LDA with any operands completes: the sample is the word of
CW(UOP_FETCH0), CW(UOP_FETCH1), CW(UOP_MAR_IR), CW(UOP_A_RAM) at steps 0 to 3 and 0x0000 at every later step up to
7, with the byte that half selects; nothing else changes. Under K11 no word of LDA asserts FI. (R150.) -/
def Obligations.LdaPresentsItsWords : Prop :=
  ∀ (q : Operands) (s : State), ImageOk s →
    exec (.lda q) s = .next (s.observe (sampleOf q.half (s.cfg.word (uopAt [.fetch0, .fetch1, .marIr, .aRam] q.step)))) ∧
    ∀ step : BitVec 3, s.cfg.k11 = true → loadsFlags s.cfg (s.cfg.word (uopAt [.fetch0, .fetch1, .marIr, .aRam] step)) = false

/-- In every state whose images are the specified ones, ADD with any operands completes: the sample is the word of
CW(UOP_FETCH0), CW(UOP_FETCH1), CW(UOP_MAR_IR), CW(UOP_B_RAM), CW(UOP_ALU_ADD) at steps 0 to 4 and 0x0000 at every
later step up to 7, with the byte that half selects; nothing else changes. Step 4 asserts FI (K6). (R151.) -/
def Obligations.AddPresentsItsWords : Prop :=
  ∀ (q : Operands) (s : State), ImageOk s →
    exec (.add q) s = .next (s.observe (sampleOf q.half (s.cfg.word (uopAt [.fetch0, .fetch1, .marIr, .bRam, .aluAdd] q.step)))) ∧
    (s.cfg.k6 = true → asserts s.cfg .fi (s.cfg.word (uopAt [.fetch0, .fetch1, .marIr, .bRam, .aluAdd] 4#3)) = true)

/-- In every state whose images are the specified ones, SUB with any operands completes: the sample is the word of
CW(UOP_FETCH0), CW(UOP_FETCH1), CW(UOP_MAR_IR), CW(UOP_B_RAM), CW(UOP_ALU_SUB) at steps 0 to 4 and 0x0000 at every
later step up to 7, with the byte that half selects; nothing else changes. Step 4 asserts FI (K6) and SU (K7).
(R152.) -/
def Obligations.SubPresentsItsWords : Prop :=
  ∀ (q : Operands) (s : State), ImageOk s →
    exec (.sub q) s = .next (s.observe (sampleOf q.half (s.cfg.word (uopAt [.fetch0, .fetch1, .marIr, .bRam, .aluSub] q.step)))) ∧
    (s.cfg.k6 = true → asserts s.cfg .fi (s.cfg.word (uopAt [.fetch0, .fetch1, .marIr, .bRam, .aluSub] 4#3)) = true) ∧
    (s.cfg.k7 = true → asserts s.cfg .su (s.cfg.word (uopAt [.fetch0, .fetch1, .marIr, .bRam, .aluSub] 4#3)) = true)

/-- In every state whose images are the specified ones, STA with any operands completes: the sample is the word of
CW(UOP_FETCH0), CW(UOP_FETCH1), CW(UOP_MAR_IR), CW(UOP_RAM_A) at steps 0 to 3 and 0x0000 at every later step up to
7, with the byte that half selects; nothing else changes. Under K11 no word of STA asserts FI. (R153.) -/
def Obligations.StaPresentsItsWords : Prop :=
  ∀ (q : Operands) (s : State), ImageOk s →
    exec (.sta q) s = .next (s.observe (sampleOf q.half (s.cfg.word (uopAt [.fetch0, .fetch1, .marIr, .ramA] q.step)))) ∧
    ∀ step : BitVec 3, s.cfg.k11 = true → loadsFlags s.cfg (s.cfg.word (uopAt [.fetch0, .fetch1, .marIr, .ramA] step)) = false

/-- In every state whose images are the specified ones, CMP with any operands completes: the sample is the word of
CW(UOP_FETCH0), CW(UOP_FETCH1), CW(UOP_MAR_IR), CW(UOP_B_RAM), CW(UOP_CMP) at steps 0 to 4 and 0x0000 at every later
step up to 7, with the byte that half selects; nothing else changes. Step 4 asserts SU (K7) and FI and not the
A-load line (K8). (R154.) -/
def Obligations.CmpPresentsItsWords : Prop :=
  ∀ (q : Operands) (s : State), ImageOk s →
    exec (.cmp q) s = .next (s.observe (sampleOf q.half (s.cfg.word (uopAt [.fetch0, .fetch1, .marIr, .bRam, .cmp] q.step)))) ∧
    (s.cfg.k7 = true → asserts s.cfg .su (s.cfg.word (uopAt [.fetch0, .fetch1, .marIr, .bRam, .cmp] 4#3)) = true) ∧
    (s.cfg.k8 = true → asserts s.cfg .fi (s.cfg.word (uopAt [.fetch0, .fetch1, .marIr, .bRam, .cmp] 4#3)) = true ∧ asserts s.cfg .ai (s.cfg.word (uopAt [.fetch0, .fetch1, .marIr, .bRam, .cmp] 4#3)) = false)

/-- In every state whose images are the specified ones, MVI with any operands completes: the sample is the word of
CW(UOP_FETCH0), CW(UOP_FETCH1), CW(UOP_A_IR) at steps 0 to 2 and 0x0000 at every later step up to 7, with the byte
that half selects; nothing else changes. Under K11 no word of MVI asserts FI. (R170.) -/
def Obligations.MviPresentsItsWords : Prop :=
  ∀ (q : Operands) (s : State), ImageOk s →
    exec (.mvi q) s = .next (s.observe (sampleOf q.half (s.cfg.word (uopAt [.fetch0, .fetch1, .aIr] q.step)))) ∧
    ∀ step : BitVec 3, s.cfg.k11 = true → loadsFlags s.cfg (s.cfg.word (uopAt [.fetch0, .fetch1, .aIr] step)) = false

/-- In every state whose images are the specified ones, INC with any operands completes: the sample is the word of
CW(UOP_FETCH0), CW(UOP_FETCH1), CW(UOP_B_IR), CW(UOP_ALU_ADD) at steps 0 to 3 and 0x0000 at every later step up to
7, with the byte that half selects; nothing else changes. Step 3 asserts FI (K6). (R171.) -/
def Obligations.IncPresentsItsWords : Prop :=
  ∀ (q : Operands) (s : State), ImageOk s →
    exec (.inc q) s = .next (s.observe (sampleOf q.half (s.cfg.word (uopAt [.fetch0, .fetch1, .bIr, .aluAdd] q.step)))) ∧
    (s.cfg.k6 = true → asserts s.cfg .fi (s.cfg.word (uopAt [.fetch0, .fetch1, .bIr, .aluAdd] 3#3)) = true)

/-- In every state whose images are the specified ones, DEC with any operands completes: the sample is the word of
CW(UOP_FETCH0), CW(UOP_FETCH1), CW(UOP_B_IR), CW(UOP_ALU_SUB) at steps 0 to 3 and 0x0000 at every later step up to
7, with the byte that half selects; nothing else changes. Step 3 asserts FI (K6) and SU (K7). (R172.) -/
def Obligations.DecPresentsItsWords : Prop :=
  ∀ (q : Operands) (s : State), ImageOk s →
    exec (.dec q) s = .next (s.observe (sampleOf q.half (s.cfg.word (uopAt [.fetch0, .fetch1, .bIr, .aluSub] q.step)))) ∧
    (s.cfg.k6 = true → asserts s.cfg .fi (s.cfg.word (uopAt [.fetch0, .fetch1, .bIr, .aluSub] 3#3)) = true) ∧
    (s.cfg.k7 = true → asserts s.cfg .su (s.cfg.word (uopAt [.fetch0, .fetch1, .bIr, .aluSub] 3#3)) = true)

/-- In every state whose images are the specified ones, JMP with any operands completes: the sample is the word of
CW(UOP_FETCH0), CW(UOP_FETCH1), CW(UOP_JUMP) at steps 0 to 2, for all flags, and 0x0000 at every later step up to 7,
with the byte that half selects; nothing else changes. (R190.) -/
def Obligations.JmpPresentsItsWords : Prop :=
  ∀ (q : Operands) (s : State), ImageOk s →
    exec (.jmp q) s = .next (s.observe (sampleOf q.half (s.cfg.word (uopAt [.fetch0, .fetch1, .jump] q.step))))

/-- In every state whose images are the specified ones, JC with any operands completes: the sample is the word of
CW(UOP_FETCH0), CW(UOP_FETCH1), and CW(UOP_JUMP) if carry is set else 0x0000, at steps 0 to 2 and 0x0000 at every
later step up to 7, with the byte that half selects; nothing else changes. That the base step-2 word of JC and of JZ
is UOP_NONE is no rule of the source but the spec's own decision (C3, D4), DEDUCED in this model (log 8, unsafe).
(R191 of 43_jumps.md; D4 of 92_eei_decisions.md.) -/
def Obligations.JcPresentsItsWords : Prop :=
  ∀ (q : Operands) (s : State), ImageOk s →
    exec (.jc q) s = .next (s.observe (sampleOf q.half (s.cfg.word (uopAt [.fetch0, .fetch1, if q.carry then .jump else .none] q.step))))

/-- In every state whose images are the specified ones, JNC with any operands completes: the sample is the word of
CW(UOP_FETCH0), CW(UOP_FETCH1), CW(JNC_BASE2) at steps 0 to 2, the same for all flags, and 0x0000 at every later
step up to 7, with the byte that half selects; nothing else changes. (R192.) -/
def Obligations.JncPresentsItsWords : Prop :=
  ∀ (q : Operands) (s : State), ImageOk s →
    exec (.jnc q) s = .next (s.observe (sampleOf q.half (s.cfg.word (uopAt [.fetch0, .fetch1, s.cfg.jncBase2.uop] q.step))))

/-- In every state whose images are the specified ones, JZ with any operands completes: the sample is the word of
CW(UOP_FETCH0), CW(UOP_FETCH1), and CW(UOP_JUMP) if zero is set else 0x0000, at steps 0 to 2 and 0x0000 at every
later step up to 7, with the byte that half selects; nothing else changes. That the base step-2 word of JC and of JZ
is UOP_NONE is no rule of the source but the spec's own decision (C3, D4), DEDUCED in this model (log 8, unsafe).
(R193 of 43_jumps.md; D4 of 92_eei_decisions.md.) -/
def Obligations.JzPresentsItsWords : Prop :=
  ∀ (q : Operands) (s : State), ImageOk s →
    exec (.jz q) s = .next (s.observe (sampleOf q.half (s.cfg.word (uopAt [.fetch0, .fetch1, if q.zero then .jump else .none] q.step))))

/-- In every state whose images are the specified ones, JNZ with any operands completes: the sample is the word of
CW(UOP_FETCH0), CW(UOP_FETCH1), and 0x0000 if zero is set else CW(UOP_JUMP), at steps 0 to 2 and 0x0000 at every
later step up to 7, with the byte that half selects; nothing else changes. (R194.) -/
def Obligations.JnzPresentsItsWords : Prop :=
  ∀ (q : Operands) (s : State), ImageOk s →
    exec (.jnz q) s = .next (s.observe (sampleOf q.half (s.cfg.word (uopAt [.fetch0, .fetch1, if q.zero then .none else .jump] q.step))))

/-- In every state whose images are the specified ones, OUT with any operands completes: the sample is the word of
CW(UOP_FETCH0), CW(UOP_FETCH1), CW(UOP_OUT_A) at steps 0 to 2 and 0x0000 at every later step up to 7, with the byte
that half selects; nothing else changes. Under K11 no word of OUT asserts FI. (R220.) -/
def Obligations.OutPresentsItsWords : Prop :=
  ∀ (q : Operands) (s : State), ImageOk s →
    exec (.out q) s = .next (s.observe (sampleOf q.half (s.cfg.word (uopAt [.fetch0, .fetch1, .outA] q.step)))) ∧
    ∀ step : BitVec 3, s.cfg.k11 = true → loadsFlags s.cfg (s.cfg.word (uopAt [.fetch0, .fetch1, .outA] step)) = false

/-- In every state whose images are the specified ones, HLT with any operands completes: the sample is the word of
CW(UOP_FETCH0), CW(UOP_FETCH1), CW(UOP_HALT) at steps 0 to 2 and 0x0000 at every later step up to 7, with the byte
that half selects; nothing else changes. (R221.) -/
def Obligations.HltPresentsItsWords : Prop :=
  ∀ (q : Operands) (s : State), ImageOk s →
    exec (.hlt q) s = .next (s.observe (sampleOf q.half (s.cfg.word (uopAt [.fetch0, .fetch1, .halt] q.step))))

/-- In every state whose images are the specified ones, NOP with any operands completes: the sample is the word of
CW(UOP_FETCH0), CW(UOP_FETCH1) at steps 0 and 1 and 0x0000 at every later step up to 7, with the byte that half
selects; nothing else changes. (R222.) -/
def Obligations.NopPresentsItsWords : Prop :=
  ∀ (q : Operands) (s : State), ImageOk s →
    exec (.nop q) s = .next (s.observe (sampleOf q.half (s.cfg.word (uopAt [.fetch0, .fetch1] q.step))))

/-- For each of the sixteen instructions (LDA, ADD, SUB, STA, MVI, INC, DEC, JC, JNC, JZ, JNZ, JMP, OUT, HLT, NOP,
CMP), any operands and any state whatever, exec answers a next state, and it is the state before with one sample
noted by the driver; no fault and no refusal exists. (R240; R46.) -/
def Obligations.EveryInstructionCompletesWithOneSample : Prop :=
  ∀ (i : Instr) (s : State), ∃ x, exec i s = .next (s.observe x)

/-- If any of the sixteen instructions answers a next state t, then the configuration, the two images, the present
inputs and the pending inputs are unchanged, every byte of both images reads as before, and the driver's trace is
the old one followed by one sample. (No instruction of the block stores anything.) (R46; R51; R53.) -/
def Obligations.InstructionFrame : Prop :=
  ∀ (i : Instr) (s t : State), exec i s = .next t →
    t.cfg = s.cfg ∧ t.imgHi = s.imgHi ∧ t.imgLo = s.imgLo ∧ t.addr = s.addr ∧ t.pending = s.pending ∧
    (∀ a : Addr13, Memory.read t.cfg t.imgHi a = Memory.read s.cfg s.imgHi a ∧
      Memory.read t.cfg t.imgLo a = Memory.read s.cfg s.imgLo a) ∧
    ∃ x, t.trace = s.trace ++ [x]

/-- For every instruction and state, specified images or not, the sample an instruction adds has as its byte the
high byte of its word if the half operand is 1, else the low byte. Where the two images differ, which device a read
at an address means is the model's reading (DEDUCED, log 15). (R94; R120; R29.) -/
def Obligations.SampledByteIsTheSelectedHalf : Prop :=
  ∀ (i : Instr) (s t : State), exec i s = .next t →
    ∃ x, t.trace = s.trace ++ [x] ∧ x.byte = (if i.operands.half then hiByte x.word else loByte x.word)

/-- If the inputs present decode to an instruction i, then step is exec of i at the state in which the driver has
presented its next inputs: the first pending address is now present and the others still wait; with none pending the
inputs stay. Holding the inputs when none is pending is the model's choice (DESIGN CHOICE, log 2). (R10; R274.) -/
def Obligations.StepRunsTheDecodedInstruction : Prop :=
  ∀ (s : State) (i : Instr), decode s.cfg.opc s.addr = .ok i →
    step s = exec i s.advance ∧
    (∀ a as, s.pending = a :: as → s.advance = { s with addr := a, pending := as }) ∧
    (s.pending = [] → s.advance = s)

/-- In every state with the specified images whose inputs are an address of 1024 or more, step answers a next state
whose new sample has the byte 0x00; the composite, whose devices hold bits 12..10 at 0, answers ControlWord of the
opcode, step, carry and zero on the wires (that the composite is on the same wires then is the model's reading,
DEDUCED, log 14). (R85; R241; R29.) -/
def Obligations.StepAboveTheLogicalSpaceReadsZero : Prop :=
  ∀ s : State, ImageOk s → 1024 ≤ s.addr.toNat →
    step s = .next (s.advance.observe
      ⟨0#8, controlWord s.cfg s.opcodeIn s.stepIn s.carryIn s.zeroIn⟩)

/-- For every state, step answers the state in which the driver has presented its next inputs and noted the two
outputs as they were with the inputs present; and where the images are the specified ones those outputs are RomByte
of the address and ControlWord of its opcode, step, carry and zero. One step is one sampled read, and the inputs
stay when none is pending (DESIGN CHOICE, logs 1 and 2). The composite's word at addresses above 1023 is the model's
reading (DEDUCED, log 14), and so is the device that answers where the two images differ (DEDUCED, log 15). (R28;
R29; R30; R274.) -/
def Obligations.StepSamplesTheLiveOutputs : Prop :=
  ∀ s : State,
    step s = .next (s.advance.observe ⟨s.dataOut, s.controlOut⟩) ∧
    (ImageOk s → s.dataOut = romByte s.cfg s.addr ∧
      s.controlOut = controlWord s.cfg s.opcodeIn s.stepIn s.carryIn s.zeroIn)

/-- For every state that meets the invariant (both images in canonical form, both devices holding the same image),
if step answers a next state then that state meets it too, has the same configuration, and reads every byte of both
images as before. (R25; R51; R53; R266.) -/
def Obligations.StepKeepsTheInvariant : Prop :=
  ∀ s t : State, StateInv s → step s = .next t →
    StateInv t ∧ t.cfg = s.cfg ∧
    ∀ a : Addr13, Memory.read t.cfg t.imgHi a = Memory.read s.cfg s.imgHi a ∧
      Memory.read t.cfg t.imgLo a = Memory.read s.cfg s.imgLo a

/-- At reset both images are canonical, equal and the specified image (the programmed image, unchanged by reset).
The values of the inputs and parameters at reset are the model's choices (logs 3 to 6) and nothing is stated about
them. (R25; R30.) -/
def Obligations.ResetMeetsTheInvariant : Prop :=
  StateInv State.reset ∧ ImageOk State.reset ∧ TraceOfUops State.reset

/-- For every state whose images are the specified ones and whose sampled words are all words of micro-operations,
every next state of step is again such a state: no other pattern of lines ever appears on the control bus. (R89;
R124; R51.) -/
def Obligations.StepKeepsTheTraceLawful : Prop :=
  ∀ s t : State, ImageOk s → TraceOfUops s → step s = .next t → ImageOk t ∧ TraceOfUops t

/-- For every state with the specified images and every non-empty list of addresses the driver presents, as many
steps as there are addresses complete, and the trace is the old one followed by, for each address in order, RomByte
of it and ControlWord of its fields: each read is answered on its own, the block keeps no memory of earlier ones. As
many steps as addresses are taken, so nothing rests on what inputs follow the last. One step is one sampled read
(DESIGN CHOICE, log 1); the composite's word for an address above 1023 is the model's reading (DEDUCED, log 14).
(R10; R21; R46; R51.) -/
def Obligations.RunSamplesThePureFunctionPointwise : Prop :=
  ∀ (s : State) (a : Addr13) (as : List Addr13), ImageOk s →
    ∃ t, Sys2Proof.core.run (as.length + 1) (s.present (a :: as)) = .next t ∧
      t.trace = s.trace ++ (a :: as).map (specSample s.cfg) ∧
      t.cfg = s.cfg ∧ t.imgHi = s.imgHi ∧ t.imgLo = s.imgLo

/-- For every configuration and whatever the device held before, Generate with a sink that opens and completes every
write gives an image with IMG[A] = RomByte(A) for all 8192 addresses and an empty log; with a sink that cannot be
opened there is no image. (R264; R248.) -/
def Obligations.GenerateMakesTheSpecifiedImage : Prop :=
  ∀ (c : Cfg) (left : Addr13 → Byte) (before : Memory),
    (∃ g, generate c true [] [] left before = some g ∧ g.log = [] ∧
      ∀ a : Addr13, Memory.read c g.image a = romByte c a) ∧
    ∀ badFill badContent, generate c false badFill badContent left before = none

/-- For every configuration, starting image, set of faulted addresses and free bytes, writing the content over two
lists of addresses with the same members, in any order and with any repetitions, gives images that read alike at
every address. Where writes fault, that an address logged holds one free byte whichever of its writes faulted is the
model's form of R250 (DESIGN CHOICE, log 25). (R265; R250.) -/
def Obligations.ContentWritesInAnyOrderAndRepeated : Prop :=
  ∀ (c : Cfg) (faults : List Addr13) (left : Addr13 → Byte) (g : Generated) (as bs : List Addr13),
    (∀ a, a ∈ as ↔ a ∈ bs) →
    ∀ x : Addr13, Memory.read c (writeContents c faults left as g).image x =
      Memory.read c (writeContents c faults left bs g).image x

/-- For every run of Generate that opened its sink, with any write faults and any free byte for each address: if no
fault was logged the image is RomByte everywhere; at an address that was not logged the image is RomByte, so in
particular where neither pass faulted; at an address that was logged, by the fill pass or the content pass and
whatever other write to it completed, the image holds the free byte of that address, any byte. The log holds exactly
the address and the value meant of each faulted write: 0x00 for a fill write, the resolved byte for a content write.
What a log entry records is the model's choice: R249 says 'the offending byte, value, and address', and the
offending byte is taken to be the value; that the faults and what they leave are data is the model's choice too
(DESIGN CHOICE, log 25). (R249; R250; R264; R267.) -/
def Obligations.FaultFreeLogMeansSpecifiedImage : Prop :=
  ∀ (c : Cfg) (badFill badContent : List Addr13) (left : Addr13 → Byte) (before : Memory) (g : Generated),
    generate c true badFill badContent left before = some g →
    (g.log = [] → ∀ a : Addr13, Memory.read c g.image a = romByte c a) ∧
    (∀ a : Addr13, (∀ v, (a, v) ∉ g.log) → Memory.read c g.image a = romByte c a) ∧
    (∀ a : Addr13, a ∉ badFill → a ∉ badContent → Memory.read c g.image a = romByte c a) ∧
    (∀ (a : Addr13) (v : Byte), (a, v) ∈ g.log → Memory.read c g.image a = left a) ∧
    ∀ (a : Addr13) (v : Byte), (a, v) ∈ g.log ↔
      (a ∈ badFill ∧ v = 0#8) ∨
        (a.toNat < 1024 ∧ hasContent (wires a).step = true ∧ a ∈ badContent ∧ v = resolve c (wires a))

/-- Two images in canonical form that read alike at every address are the same list; and for every state that meets
the invariant, the images are the specified ones exactly when both list no cell. This is about the model's own form
of an image, a list of the bytes that differ from the specified one (DESIGN CHOICE, log 9): the spec speaks of no
list. (R25; R267.) -/
def Obligations.SpecifiedImageListsNothing : Prop :=
  (∀ (c : Cfg) (m n : Memory), Memory.wf c m → Memory.wf c n →
      (∀ a : Addr13, Memory.read c m a = Memory.read c n a) → m = n) ∧
    ∀ s : State, StateInv s → (ImageOk s ↔ s.imgHi = [] ∧ s.imgLo = [])

/-- For every state, instruction and byte v: if the image of the device the half operand selects lists v at the
instruction's address, then the instruction completes and the byte it samples is v. Where the two images differ,
which device a read at an address means is the model's reading (DEDUCED, log 15); that an image is a list of the
bytes that differ from the specified one is the model's form (DESIGN CHOICE, log 9). (R250; R25.) -/
def Obligations.FaultedByteIsPresented : Prop :=
  ∀ (i : Instr) (s : State) (v : Byte),
    Memory.listed (s.image i.operands.half) (encode s.cfg.opc i).toNat = some v →
    ∃ x, exec i s = .next (s.observe x) ∧ x.byte = v

/-- Under K2 and K9, in every state with the specified images, the word an instruction samples asserts the line HLT
exactly when the instruction is HLT and its step is 2. (R92; R221.) -/
def Obligations.OnlyHltAtStepTwoAssertsHalt : Prop :=
  ∀ (i : Instr) (s t : State), ImageOk s → s.cfg.k2 = true → s.cfg.k9 = true → exec i s = .next t →
    ∃ x, t.trace = s.trace ++ [x] ∧
      (asserts s.cfg .hlt x.word = true ↔ i.mnemonic = .hlt ∧ i.operands.step = 2#3)

/-- Under K3 and K9, in every state with the specified images, the word an instruction samples asserts the line J
exactly at step 2 of JMP, of JC with carry set, of JZ with zero set, of JNZ with zero clear, and of JNC when
JNC_BASE2 is UOP_JUMP. That JC with carry clear and JZ with zero clear do not assert J rests on their base words:
that the base step-2 word of JC and of JZ is UOP_NONE is no rule of the source but the spec's own decision (C3, D4),
DEDUCED in this model (log 8, unsafe). (R92; R195; D4 of 92_eei_decisions.md.) -/
def Obligations.OnlyTakenJumpsAssertJ : Prop :=
  ∀ (i : Instr) (s t : State), ImageOk s → s.cfg.k3 = true → s.cfg.k9 = true → exec i s = .next t →
    ∃ x, t.trace = s.trace ++ [x] ∧
      (asserts s.cfg .j x.word = true ↔ i.operands.step = 2#3 ∧
        (i.mnemonic = .jmp ∨ (i.mnemonic = .jc ∧ i.operands.carry = true) ∨
          (i.mnemonic = .jz ∧ i.operands.zero = true) ∨ (i.mnemonic = .jnz ∧ i.operands.zero = false) ∨
          (i.mnemonic = .jnc ∧ s.cfg.jncBase2 = .uopJump)))

/-- Under K6, K8 and K11, in every state with the specified images, the word an instruction samples asserts FI
exactly at step 4 of ADD, SUB and CMP and at step 3 of INC and DEC: no word of the jump family and no fetch word
commands a flag change. (R92; R196; R270.) -/
def Obligations.FlagLoadsAreTheFiveAluSteps : Prop :=
  ∀ (i : Instr) (s t : State), ImageOk s → s.cfg.k6 = true → s.cfg.k8 = true → s.cfg.k11 = true →
    exec i s = .next t →
    ∃ x, t.trace = s.trace ++ [x] ∧
      (loadsFlags s.cfg x.word = true ↔
        (i.operands.step = 4#3 ∧ (i.mnemonic = .add ∨ i.mnemonic = .sub ∨ i.mnemonic = .cmp)) ∨
          (i.operands.step = 3#3 ∧ (i.mnemonic = .inc ∨ i.mnemonic = .dec)))

/-- Every next state of a step or of an instruction samples at every 13-bit address what the state before it samples
there. For all addresses a and b, presenting a then b and presenting b then a give the same two samples in the two
orders. For all instructions i and j: running i twice adds the same sample twice, and i then j samples what j then i
does. (What is sampled at an address above 1023, or where the two images differ, is the reading of logs 14 and 15;
here only that it does not change is stated.) (R46; R51.) -/
def Obligations.ReadsDoNotDisturbEachOther : Prop :=
  (∀ s t : State, (step s = .next t ∨ ∃ i, exec i s = .next t) →
      ∀ a : Addr13, t.sampleAt a = s.sampleAt a) ∧
    (∀ (s : State) (a b : Addr13), ∃ x y t u,
      Sys2Proof.core.run 2 (s.present [a, b]) = .next t ∧ t.trace = s.trace ++ [x, y] ∧
      Sys2Proof.core.run 2 (s.present [b, a]) = .next u ∧ u.trace = s.trace ++ [y, x]) ∧
    ∀ (i j : Instr) (s : State), ∃ x y : Sample,
      exec i s = .next (s.observe x) ∧ exec j s = .next (s.observe y) ∧
      exec i (s.observe x) = .next ((s.observe x).observe x) ∧
      exec j (s.observe x) = .next ((s.observe x).observe y) ∧
      exec i (s.observe y) = .next ((s.observe y).observe x)

/-- In every state with the specified images, for the word an instruction samples: under K4 it asserts MI at step 0,
and at step 2 of LDA, ADD, SUB, STA and CMP; under K5 it asserts CE at step 1; under K6 it asserts EO and FI at step
4 of ADD and SUB and at step 3 of INC and DEC; under K7 it asserts SU at step 4 of SUB and CMP and at step 3 of DEC,
and not at step 4 of ADD or step 3 of INC; under K10 it is 0x0000 exactly from the end of the instruction's sequence
on: step 5 for ADD, SUB, CMP, 4 for LDA, STA, INC, DEC, 3 for MVI, JMP, OUT, HLT and a jump that is taken, 2 for NOP
and a jump that is not (JNC by JNC_BASE2). That JC with carry clear and JZ with zero clear are empty at step 2 rests
on the spec's own decision D4, DEDUCED in this model (log 8, unsafe). (R92; R115; D4 of 92_eei_decisions.md.) -/
def Obligations.StepsAssertTheirLines : Prop :=
  ∀ (i : Instr) (s t : State), ImageOk s → exec i s = .next t →
    ∃ x, t.trace = s.trace ++ [x] ∧
      (s.cfg.k4 = true → (i.operands.step = 0#3 ∨ (i.operands.step = 2#3 ∧
          i.mnemonic ∈ [Mnemonic.lda, .add, .sub, .sta, .cmp])) → asserts s.cfg .mi x.word = true) ∧
      (s.cfg.k5 = true → i.operands.step = 1#3 → asserts s.cfg .ce x.word = true) ∧
      (s.cfg.k6 = true → (i.operands.step = 4#3 ∧ i.mnemonic ∈ [Mnemonic.add, .sub]) ∨
          (i.operands.step = 3#3 ∧ i.mnemonic ∈ [Mnemonic.inc, .dec]) →
        asserts s.cfg .eo x.word = true ∧ asserts s.cfg .fi x.word = true) ∧
      (s.cfg.k7 = true → ((i.operands.step = 4#3 ∧ i.mnemonic ∈ [Mnemonic.sub, .cmp]) ∨
          (i.operands.step = 3#3 ∧ i.mnemonic = .dec) → asserts s.cfg .su x.word = true) ∧
        ((i.operands.step = 4#3 ∧ i.mnemonic = .add) ∨
          (i.operands.step = 3#3 ∧ i.mnemonic = .inc) → asserts s.cfg .su x.word = false)) ∧
      (s.cfg.k10 = true → (x.word = 0#16 ↔
        (match i.mnemonic with
          | .add | .sub | .cmp => 5
          | .lda | .sta | .inc | .dec => 4
          | .mvi | .jmp | .out | .hlt => 3
          | .jc => if i.operands.carry then 3 else 2
          | .jz => if i.operands.zero then 3 else 2
          | .jnz => if i.operands.zero then 2 else 3
          | .jnc => if s.cfg.jncBase2 = .uopJump then 3 else 2
          | .nop => 2) ≤ i.operands.step.toNat))
end

