-- ==== Sys2Proof/Laws/Config.lean ====
section
/-! SUPPORT. The two parameters that carry a constraint: what the constraint gives (R5). -/

namespace Sys2Proof

theorem Mnemonic.mem_all (m : Mnemonic) : m ∈ Mnemonic.all := by cases m <;> decide

theorem Line.mem_all (l : Line) : l ∈ Line.all := by cases l <;> decide

theorem Uop.mem_all (u : Uop) : u ∈ Uop.all := by cases u <;> decide

theorem Opc.num_injective (o : Opc) {m n : Mnemonic} (h : o.num m = o.num n) : m = n := by
  have hb := o.bij
  simp only [OpcMap.bijective, Bool.and_eq_true, List.all_eq_true, decide_eq_true_eq] at hb
  exact hb.1 m m.mem_all n n.mem_all h

theorem Opc.num_eq_iff (o : Opc) (m n : Mnemonic) : o.num m = o.num n ↔ m = n :=
  ⟨o.num_injective, fun h => h ▸ rfl⟩

theorem Opc.exists_num (o : Opc) (v : BitVec 4) : ∃ m, o.num m = v := by
  have hb := o.bij
  simp only [OpcMap.bijective, Bool.and_eq_true, List.all_eq_true, List.any_eq_true,
    decide_eq_true_eq, List.mem_range] at hb
  obtain ⟨m, -, hm⟩ := hb.2 v.toNat v.isLt
  exact ⟨m, hm.trans (BitVec.ofNat_toNat 4 v ▸ by simp)⟩

/-- The default of `Opc.mnemonicOf` is never reached. -/
@[simp] theorem Opc.num_mnemonicOf (o : Opc) (v : BitVec 4) : o.num (o.mnemonicOf v) = v := by
  obtain ⟨m, hm⟩ := o.exists_num v
  unfold Opc.mnemonicOf
  cases hf : Mnemonic.all.find? fun m => decide (o.num m = v) with
  | none =>
    have := List.find?_eq_none.mp hf m m.mem_all
    simp [hm] at this
  | some n => simpa using List.find?_some hf

@[simp] theorem Opc.mnemonicOf_num (o : Opc) (m : Mnemonic) : o.mnemonicOf (o.num m) = m :=
  o.num_injective (o.num_mnemonicOf _)

theorem Opc.mnemonicOf_eq_iff (o : Opc) (v : BitVec 4) (m : Mnemonic) :
    o.mnemonicOf v = m ↔ v = o.num m :=
  ⟨fun h => by rw [← h, o.num_mnemonicOf], fun h => by rw [h, o.mnemonicOf_num]⟩

theorem LineBit.bit_injective (p : LineBit) {l k : Line} (h : p.bit l = p.bit k) : l = k := by
  have hi := p.inj
  simp only [LineMap.injective, List.all_eq_true, decide_eq_true_eq] at hi
  exact hi l l.mem_all k k.mem_all h

/-- A step input is one of eight. -/
theorem step_cases (x : BitVec 3) :
    x = 0#3 ∨ x = 1#3 ∨ x = 2#3 ∨ x = 3#3 ∨ x = 4#3 ∨ x = 5#3 ∨ x = 6#3 ∨ x = 7#3 := by
  revert x; decide

@[simp] theorem Instr.mnemonic_ofMnemonic (q : Operands) (m : Mnemonic) :
    (Instr.ofMnemonic q m).mnemonic = m := by cases m <;> rfl

@[simp] theorem Instr.operands_ofMnemonic (q : Operands) (m : Mnemonic) :
    (Instr.ofMnemonic q m).operands = q := by cases m <;> rfl

@[simp] theorem Instr.ofMnemonic_self (i : Instr) : Instr.ofMnemonic i.operands i.mnemonic = i := by
  cases i <;> rfl

end Sys2Proof
end

