-- ==== Sys2Proof/Laws/Decode.lean ====
section
/-! SUPPORT. The physical address around the logical one (R76): small facts about `Addr13.logical`, `Addr13.low` and
`Addr10.physical`, stated with numbers where that is what callers need. -/

namespace Sys2Proof

/-- The unnamed bits are clear exactly below 1024. -/
theorem Addr13.logical_iff_lt (a : Addr13) : Addr13.logical a = true ↔ a.toNat < 1024 := by
  have := a.isLt
  simp only [Addr13.logical, decide_eq_true_eq, ← BitVec.toNat_inj]
  simp [BitVec.extractLsb'_toNat, Nat.shiftRight_eq_div_pow]
  omega

theorem Addr10.toNat_physical (a : Addr10) : (Addr10.physical a).toNat = a.toNat := by
  have := a.isLt
  simp [Addr10.physical]
  omega

@[simp] theorem Addr13.logical_physical (a : Addr10) : Addr13.logical (Addr10.physical a) = true := by
  rw [Addr13.logical_iff_lt, Addr10.toNat_physical]
  exact a.isLt

@[simp] theorem Addr13.low_physical (a : Addr10) : Addr13.low (Addr10.physical a) = a := by
  apply BitVec.eq_of_toNat_eq
  simp [Addr13.low, BitVec.extractLsb'_toNat, Addr10.toNat_physical]
  exact a.isLt

theorem Addr13.physical_low {a : Addr13} (h : Addr13.logical a = true) :
    Addr10.physical (Addr13.low a) = a := by
  rw [Addr13.logical_iff_lt] at h
  apply BitVec.eq_of_toNat_eq
  simp [Addr13.low, Addr10.toNat_physical, BitVec.extractLsb'_toNat]
  omega

/-- The step wires are the address modulo 8. -/
theorem Machine.wires_step_toNat (a : Addr13) : (Machine.wires a).step.toNat = a.toNat % 8 := by
  simp [Machine.wires, decodeFields, Addr13.low, BitVec.extractLsb'_toNat]

end Sys2Proof
end

