-- ==== Sys2Proof/Laws/Memory.lean ====
section
/-! SUPPORT. An image as a memory: a read after a write, and that every operation keeps the canonical form. -/

namespace Sys2Proof.Machine

theorem unlisted_toNat (c : Cfg) (a : Addr13) : unlisted c a.toNat = romByte c a := by
  simp [unlisted]

@[simp] theorem Memory.read_nil (c : Cfg) (a : Addr13) : Memory.read c [] a = romByte c a :=
  unlisted_toNat c a

@[simp] theorem Memory.listed_put_same (m : Memory) (a : Nat) (v : Byte) :
    Memory.listed (Memory.put m a v) a = some v := by
  induction m with
  | nil => simp [Memory.put, Memory.listed]
  | cons x m ih =>
    obtain ⟨k, b⟩ := x
    unfold Memory.put
    split
    · simp [Memory.listed]
    · split
      · simp [Memory.listed]
      · rename_i hne
        simp [Memory.listed, Ne.symm hne, ih]

theorem Memory.listed_put_other (m : Memory) {a b : Nat} (v : Byte) (h : b ≠ a) :
    Memory.listed (Memory.put m a v) b = Memory.listed m b := by
  induction m with
  | nil => simp [Memory.put, Memory.listed, Ne.symm h]
  | cons x m ih =>
    obtain ⟨k, w⟩ := x
    unfold Memory.put
    split
    · simp [Memory.listed, Ne.symm h]
    · split
      · rename_i hk
        subst hk
        simp [Memory.listed, Ne.symm h]
      · simp [Memory.listed, ih]

@[simp] theorem Memory.listed_remove_same (m : Memory) (a : Nat) :
    Memory.listed (Memory.remove m a) a = none := by
  induction m with
  | nil => rfl
  | cons x m ih =>
    obtain ⟨k, b⟩ := x
    by_cases hk : k = a
    · simpa [Memory.remove, hk] using ih
    · simpa [Memory.remove, Memory.listed, hk] using ih

theorem Memory.listed_remove_other (m : Memory) {a b : Nat} (h : b ≠ a) :
    Memory.listed (Memory.remove m a) b = Memory.listed m b := by
  induction m with
  | nil => rfl
  | cons x m ih =>
    obtain ⟨k, w⟩ := x
    by_cases hk : k = a
    · subst hk
      simpa [Memory.remove, Memory.listed, Ne.symm h] using ih
    · by_cases hb : k = b
      · subst hb
        simp [Memory.remove, Memory.listed, hk]
      · simpa [Memory.remove, Memory.listed, hk, hb] using ih

/-- A read after a write to the same address gives the byte written. -/
@[simp] theorem Memory.read_write_same (c : Cfg) (m : Memory) (a : Addr13) (v : Byte) :
    Memory.read c (Memory.write c m a v) a = v := by
  unfold Memory.read Memory.write
  split
  · next h => simp [h]
  · simp

/-- A write leaves every other address alone. -/
theorem Memory.read_write_other (c : Cfg) (m : Memory) {a b : Addr13} (v : Byte) (h : b ≠ a) :
    Memory.read c (Memory.write c m a v) b = Memory.read c m b := by
  have hn : b.toNat ≠ a.toNat := fun e => h (BitVec.eq_of_toNat_eq e)
  unfold Memory.read Memory.write
  split
  · rw [Memory.listed_remove_other m hn]
  · rw [Memory.listed_put_other m v hn]

theorem Memory.read_write (c : Cfg) (m : Memory) (a b : Addr13) (v : Byte) :
    Memory.read c (Memory.write c m a v) b = if b = a then v else Memory.read c m b := by
  split
  · next h => rw [h, Memory.read_write_same]
  · next h => exact Memory.read_write_other c m v h

theorem Memory.wf_nil (c : Cfg) : Memory.wf c [] := ⟨List.Pairwise.nil, by simp⟩

theorem Memory.wf_remove {c : Cfg} {m : Memory} (a : Nat) (h : Memory.wf c m) :
    Memory.wf c (Memory.remove m a) :=
  ⟨h.1.filter _, fun x hx => h.2 x (List.mem_filter.mp hx).1⟩

theorem Memory.mem_put {m : Memory} {a : Nat} {v : Byte} {x : Host.Cell}
    (h : x ∈ Memory.put m a v) : x = (a, v) ∨ x ∈ m := by
  induction m with
  | nil => simpa [Memory.put] using h
  | cons y m ih =>
    obtain ⟨k, b⟩ := y
    unfold Memory.put at h
    split at h
    · simpa using h
    · split at h
      · rcases List.mem_cons.mp h with h | h
        · exact .inl h
        · exact .inr (List.mem_cons_of_mem _ h)
      · rcases List.mem_cons.mp h with h | h
        · exact .inr (h ▸ List.mem_cons_self)
        · exact (ih h).imp_right (List.mem_cons_of_mem _)

theorem Memory.sorted_put {m : Memory} (a : Nat) (v : Byte)
    (h : m.Pairwise fun x y => x.1 < y.1) : (Memory.put m a v).Pairwise fun x y => x.1 < y.1 := by
  induction m with
  | nil => simp [Memory.put]
  | cons x m ih =>
    obtain ⟨k, b⟩ := x
    obtain ⟨hk, hm⟩ := List.pairwise_cons.mp h
    unfold Memory.put
    split
    · next hlt =>
      refine List.pairwise_cons.mpr ⟨fun y hy => ?_, h⟩
      rcases List.mem_cons.mp hy with rfl | hy
      · exact hlt
      · exact Nat.lt_trans hlt (hk y hy)
    · split
      · next heq => exact List.pairwise_cons.mpr ⟨fun y hy => heq ▸ hk y hy, hm⟩
      · next hlt hne =>
        refine List.pairwise_cons.mpr ⟨fun y hy => ?_, ih hm⟩
        rcases Memory.mem_put hy with rfl | hy
        · simp only; omega
        · exact hk y hy

/-- A write keeps the canonical form. -/
theorem Memory.wf_write {c : Cfg} {m : Memory} (a : Addr13) (v : Byte) (h : Memory.wf c m) :
    Memory.wf c (Memory.write c m a v) := by
  unfold Memory.write
  split
  · exact Memory.wf_remove _ h
  · next hv =>
    refine ⟨Memory.sorted_put _ _ h.1, fun x hx => ?_⟩
    rcases Memory.mem_put hx with rfl | hx
    · exact ⟨a.isLt, hv⟩
    · exact h.2 x hx

/-- An address below every cell is not listed. -/
theorem Memory.listed_eq_none_of_lt {m : Memory} {k : Nat} (h : ∀ x ∈ m, k < x.1) :
    Memory.listed m k = none := by
  induction m with
  | nil => rfl
  | cons x m ih =>
    obtain ⟨j, b⟩ := x
    have hj : k < j := h (j, b) List.mem_cons_self
    rw [Memory.listed, if_neg (by omega)]
    exact ih fun y hy => h y (List.mem_cons_of_mem _ hy)

/-- What an image lists is one of its cells. -/
theorem Memory.mem_of_listed {m : Memory} {k : Nat} {b : Byte} (h : Memory.listed m k = some b) :
    (k, b) ∈ m := by
  induction m with
  | nil => simp [Memory.listed] at h
  | cons x m ih =>
    obtain ⟨j, w⟩ := x
    rw [Memory.listed] at h
    split at h
    · next hj => simp_all
    · exact List.mem_cons_of_mem _ (ih h)

/-- In a canonical image the cell at the head is the cell listed at its address. -/
theorem Memory.listed_head (k : Nat) (b : Byte) (m : Memory) :
    Memory.listed ((k, b) :: m) k = some b := by simp [Memory.listed]

end Sys2Proof.Machine
end

