-- ==== Sys2Proof/Laws/Generate.lean ====
section
/-! SUPPORT. What one write of the generator can do: to the byte at each address, to the log, to the canonical form. -/

namespace Sys2Proof.Machine

theorem logged_iff (log : List (Addr13 × Byte)) (a : Addr13) :
    logged log a = true ↔ ∃ v, (a, v) ∈ log := by
  simp only [logged, List.any_eq_true, decide_eq_true_eq]
  constructor
  · rintro ⟨⟨b, v⟩, h, rfl⟩; exact ⟨v, h⟩
  · rintro ⟨v, h⟩; exact ⟨_, h, rfl⟩

/-- A write that completes logs nothing, a write that does not logs its address and value. -/
theorem log_writeAt (c : Cfg) (faults : List Addr13) (left : Addr13 → Byte) (g : Generated) (a : Addr13) (v : Byte) :
    (writeAt c faults left g a v).log = if a ∈ faults then g.log ++ [(a, v)] else g.log := rfl

/-- What the log holds after a write: what it held, and the address and value if the write did not complete. -/
theorem mem_log_writeAt (c : Cfg) (faults : List Addr13) (left : Addr13 → Byte) (g : Generated) (a : Addr13)
    (v : Byte) (x : Addr13 × Byte) :
    x ∈ (writeAt c faults left g a v).log ↔ x ∈ g.log ∨ (a ∈ faults ∧ x = (a, v)) := by
  rw [log_writeAt]
  split <;> next h => simp [h]

/-- Which addresses are logged after a write. -/
theorem logged_writeAt (c : Cfg) (faults : List Addr13) (left : Addr13 → Byte) (g : Generated) (a b : Addr13)
    (v : Byte) : logged (writeAt c faults left g a v).log b = (logged g.log b || decide (a ∈ faults ∧ b = a)) := by
  rw [log_writeAt]
  by_cases h : a ∈ faults <;> simp [h, logged, eq_comm]

/-- After a write its address reads as its free byte if it is logged and as the value otherwise; every other address reads
as before. -/
theorem read_writeAt (c : Cfg) (faults : List Addr13) (left : Addr13 → Byte) (g : Generated) (a b : Addr13) (v : Byte) :
    Memory.read c (writeAt c faults left g a v).image b =
      if b = a then (if logged (writeAt c faults left g a v).log a then left a else v)
      else Memory.read c g.image b :=
  Memory.read_write c g.image a b _

/-- A write keeps the canonical form, whether or not it completes. -/
theorem wf_writeAt {c : Cfg} (faults : List Addr13) (left : Addr13 → Byte) {g : Generated} (a : Addr13) (v : Byte)
    (h : Memory.wf c g.image) : Memory.wf c (writeAt c faults left g a v).image :=
  Memory.wf_write _ _ h

/-- A content write is a write at a step with content and nothing at a filler step. -/
theorem writeContent_of_filler {c : Cfg} {faults : List Addr13} {left : Addr13 → Byte} {g : Generated} {a : Addr13}
    (h : hasContent (wires a).step = false) : writeContent c faults left g a = g := by
  simp [writeContent, h]

theorem writeContent_of_content {c : Cfg} {faults : List Addr13} {left : Addr13 → Byte} {g : Generated} {a : Addr13}
    (h : hasContent (wires a).step = true) :
    writeContent c faults left g a = writeAt c faults left g a (resolve c (wires a)) := by
  simp [writeContent, h]

/-- A run of writes that all complete logs nothing. -/
theorem log_zeroFill_nil (c : Cfg) (left : Addr13 → Byte) (g : Generated) : (zeroFill c [] left g).log = g.log := by
  unfold zeroFill
  generalize addressesBelow 8192 = as
  induction as generalizing g with
  | nil => rfl
  | cons a as ih => exact (ih _).trans (log_writeAt c [] left g a 0#8)

theorem log_writeContents_nil (c : Cfg) (left : Addr13 → Byte) (as : List Addr13) (g : Generated) :
    (writeContents c [] left as g).log = g.log := by
  induction as generalizing g with
  | nil => rfl
  | cons a as ih =>
    refine (ih _).trans ?_
    unfold writeContent
    split
    · exact log_writeAt c [] left g a _
    · rfl

/-- The addresses below a bound within the device are the 13-bit addresses below it. -/
theorem mem_addressesBelow {n : Nat} (hn : n ≤ 8192) (a : Addr13) :
    a ∈ addressesBelow n ↔ a.toNat < n := by
  simp only [addressesBelow, List.mem_map, List.mem_range]
  constructor
  · rintro ⟨k, hk, rfl⟩
    simp only [BitVec.toNat_ofNat]
    omega
  · exact fun h => ⟨a.toNat, h, by simp⟩

end Sys2Proof.Machine
end

