-- ==== Sys2Proof/Laws/State.lean ====
section
/-! SUPPORT. One lemma per field per update of the state (the driver's moves are the only updates there are). -/

namespace Sys2Proof.Machine

@[simp] theorem State.observe_cfg (s : State) (x : Sample) : (s.observe x).cfg = s.cfg := rfl
@[simp] theorem State.observe_imgHi (s : State) (x : Sample) : (s.observe x).imgHi = s.imgHi := rfl
@[simp] theorem State.observe_imgLo (s : State) (x : Sample) : (s.observe x).imgLo = s.imgLo := rfl
@[simp] theorem State.observe_addr (s : State) (x : Sample) : (s.observe x).addr = s.addr := rfl
@[simp] theorem State.observe_pending (s : State) (x : Sample) : (s.observe x).pending = s.pending := rfl
@[simp] theorem State.observe_trace (s : State) (x : Sample) : (s.observe x).trace = s.trace ++ [x] := rfl

@[simp] theorem State.present_nil (s : State) : s.present [] = s := rfl
@[simp] theorem State.present_cons_addr (s : State) (a : Addr13) (as : List Addr13) :
    (s.present (a :: as)).addr = a := rfl
@[simp] theorem State.present_cons_pending (s : State) (a : Addr13) (as : List Addr13) :
    (s.present (a :: as)).pending = as := rfl
@[simp] theorem State.present_cfg (s : State) (as : List Addr13) : (s.present as).cfg = s.cfg := by
  cases as <;> rfl
@[simp] theorem State.present_imgHi (s : State) (as : List Addr13) : (s.present as).imgHi = s.imgHi := by
  cases as <;> rfl
@[simp] theorem State.present_imgLo (s : State) (as : List Addr13) : (s.present as).imgLo = s.imgLo := by
  cases as <;> rfl
@[simp] theorem State.present_trace (s : State) (as : List Addr13) : (s.present as).trace = s.trace := by
  cases as <;> rfl

@[simp] theorem State.advance_cfg (s : State) : s.advance.cfg = s.cfg := s.present_cfg _
@[simp] theorem State.advance_imgHi (s : State) : s.advance.imgHi = s.imgHi := s.present_imgHi _
@[simp] theorem State.advance_imgLo (s : State) : s.advance.imgLo = s.imgLo := s.present_imgLo _
@[simp] theorem State.advance_trace (s : State) : s.advance.trace = s.trace := s.present_trace _

@[simp] theorem State.withFetchWord_cfg (s : State) (n w : Nat) : (s.withFetchWord n w).cfg = s.cfg := rfl
@[simp] theorem State.withFetchWord_imgHi (s : State) (n w : Nat) : (s.withFetchWord n w).imgHi = s.imgHi := rfl
@[simp] theorem State.withFetchWord_imgLo (s : State) (n w : Nat) : (s.withFetchWord n w).imgLo = s.imgLo := rfl
@[simp] theorem State.withFetchWord_pending (s : State) (n w : Nat) :
    (s.withFetchWord n w).pending = s.pending := rfl
@[simp] theorem State.withFetchWord_trace (s : State) (n w : Nat) : (s.withFetchWord n w).trace = s.trace := rfl
@[simp] theorem State.withFetchWord_addr (s : State) (n w : Nat) :
    (s.withFetchWord n w).addr = BitVec.ofNat 13 (w % 2 ^ n) := rfl

end Sys2Proof.Machine
end

