-- ==== Sys2Proof/Laws/Ops.lean ====
section
/-! SUPPORT. What each shared operation can do, said once; the provers cite these instead of unfolding. -/

namespace Sys2Proof.Machine

/-- A read is one sample and nothing else. -/
theorem readAt_next {a : Addr13} {s t : State} (h : readAt a s = .next t) :
    t = s.observe (s.sampleAt a) := by
  cases h; rfl

/-- Every instruction is the read at its own address. -/
theorem exec_eq_readAt (i : Instr) (s : State) : exec i s = readAt (encode s.cfg.opc i) s := by
  cases i <;> rfl

/-- What an instruction can do: one sample, at its own address, and nothing else. -/
theorem exec_next {i : Instr} {s t : State} (h : exec i s = .next t) :
    t = s.observe (s.sampleAt (encode s.cfg.opc i)) := by
  rw [exec_eq_readAt] at h
  exact readAt_next h

/-- What a step can do: the driver moves on and notes one sample. -/
theorem step_next {s t : State} (h : step s = .next t) :
    ∃ a, t = s.advance.observe (s.advance.sampleAt a) := by
  unfold step at h
  split at h
  · exact ⟨_, exec_next h⟩
  · exact ⟨_, readAt_next h⟩

/-- A sample depends on the configuration and the images only, not on the driver. -/
theorem State.sampleAt_congr {s t : State} (hc : t.cfg = s.cfg) (hh : t.imgHi = s.imgHi)
    (hl : t.imgLo = s.imgLo) (a : Addr13) : t.sampleAt a = s.sampleAt a := by
  simp only [State.sampleAt, State.deviceByte, State.compositeWord, State.image, hc, hh, hl]

@[simp] theorem State.sampleAt_observe (s : State) (x : Sample) (a : Addr13) :
    (s.observe x).sampleAt a = s.sampleAt a :=
  State.sampleAt_congr rfl rfl rfl a

@[simp] theorem State.sampleAt_present (s : State) (as : List Addr13) (a : Addr13) :
    (s.present as).sampleAt a = s.sampleAt a :=
  State.sampleAt_congr (s.present_cfg as) (s.present_imgHi as) (s.present_imgLo as) a

@[simp] theorem State.sampleAt_advance (s : State) (a : Addr13) :
    s.advance.sampleAt a = s.sampleAt a :=
  s.sampleAt_present _ a

/-- The table's cell at an opcode number given by OPC. -/
theorem lookup_num (c : Cfg) (m : Mnemonic) (step : BitVec 3) :
    lookup c (c.opc.num m) step = c.word (table c.jncBase2 m step) := by
  simp [lookup]

/-- The two halves of a word put together. -/
theorem hiByte_append_loByte (w : Word) : hiByte w ++ loByte w = w := by
  ext i hi
  simp only [hiByte, loByte, BitVec.getElem_append, BitVec.getElem_extractLsb']
  split
  · simp [BitVec.getLsbD, BitVec.getElem_eq_testBit_toNat]
  · next h =>
    have : 8 + (i - 8) = i := by omega
    simp [this, BitVec.getLsbD, BitVec.getElem_eq_testBit_toNat]

@[simp] theorem hiByte_append (x y : Byte) : hiByte (x ++ y) = x := by
  change BitVec.extractLsb' 8 8 (x ++ y : BitVec (8 + 8)) = x
  ext i hi
  rw [BitVec.getElem_extractLsb', BitVec.getLsbD_append, if_neg (by omega),
    Nat.add_sub_cancel_left, BitVec.getLsbD_eq_getElem hi]

@[simp] theorem loByte_append (x y : Byte) : loByte (x ++ y) = y := by
  change BitVec.extractLsb' 0 8 (x ++ y : BitVec (8 + 8)) = y
  ext i hi
  rw [BitVec.getElem_extractLsb', BitVec.getLsbD_append, if_pos (by omega),
    Nat.zero_add, BitVec.getLsbD_eq_getElem hi]

end Sys2Proof.Machine
end

