-- ==== Sys2Proof/Laws/PerInstr.lean ====
section
/-! SUPPORT. Statements made per instruction. Family `OpcodeField` (R82 of spec/30_encoding.md): the address of an
instruction carries its OPC number in bits 6..3 and its step in bits 2..0, and leaves bits 12..10 clear. -/

namespace Sys2Proof.Laws.OpcodeField

def Statement (i : Instr) : Prop :=
  ∀ o : Opc, (encode o i).extractLsb' 3 4 = o.num i.mnemonic ∧
    (encode o i).extractLsb' 0 3 = i.operands.step ∧ (encode o i).extractLsb' 10 3 = 0#3

/-- The three field positions, once for all instructions. -/
theorem positions (v : BitVec 4) (st : BitVec 3) (h c z : Bool) :
    (Addr10.physical (encodeFields ⟨st, v, h, c, z⟩)).extractLsb' 3 4 = v ∧
      (Addr10.physical (encodeFields ⟨st, v, h, c, z⟩)).extractLsb' 0 3 = st ∧
      (Addr10.physical (encodeFields ⟨st, v, h, c, z⟩)).extractLsb' 10 3 = 0#3 := by
  revert v st h c z; decide

theorem lda (q : Operands) : Statement (.lda q) := fun _ => positions _ _ _ _ _
theorem add (q : Operands) : Statement (.add q) := fun _ => positions _ _ _ _ _
theorem sub (q : Operands) : Statement (.sub q) := fun _ => positions _ _ _ _ _
theorem sta (q : Operands) : Statement (.sta q) := fun _ => positions _ _ _ _ _
theorem mvi (q : Operands) : Statement (.mvi q) := fun _ => positions _ _ _ _ _
theorem inc (q : Operands) : Statement (.inc q) := fun _ => positions _ _ _ _ _
theorem dec (q : Operands) : Statement (.dec q) := fun _ => positions _ _ _ _ _
theorem jc (q : Operands) : Statement (.jc q) := fun _ => positions _ _ _ _ _
theorem jnc (q : Operands) : Statement (.jnc q) := fun _ => positions _ _ _ _ _
theorem jz (q : Operands) : Statement (.jz q) := fun _ => positions _ _ _ _ _
theorem jnz (q : Operands) : Statement (.jnz q) := fun _ => positions _ _ _ _ _
theorem jmp (q : Operands) : Statement (.jmp q) := fun _ => positions _ _ _ _ _
theorem out (q : Operands) : Statement (.out q) := fun _ => positions _ _ _ _ _
theorem hlt (q : Operands) : Statement (.hlt q) := fun _ => positions _ _ _ _ _
theorem nop (q : Operands) : Statement (.nop q) := fun _ => positions _ _ _ _ _
theorem cmp (q : Operands) : Statement (.cmp q) := fun _ => positions _ _ _ _ _

end Sys2Proof.Laws.OpcodeField
end

