-- ==== Sys2Proof/Machine/Driver.lean ====
section
/-! DEFINITION. The driver's programs (D22 of spec/92_eei_decisions.md): a finite list of tuples (mnemonic, carry, zero),
each presented at steps 0 to 5 in order. The driver is outside the block and is the model's scaffolding (R10, log 28). -/

namespace Sys2Proof.Machine

/-- One tuple of a driver's program. -/
structure Tuple where
  mnemonic : Mnemonic
  carry : Bool
  zero : Bool
  deriving DecidableEq, Repr

/-- The addresses a tuple presents: steps 0 to 5 in order, the half selector at 0 (log 28). -/
def Tuple.addresses (o : Opc) (t : Tuple) : List Addr13 :=
  (List.range 6).map fun k =>
    encode o (Instr.ofMnemonic ⟨BitVec.ofNat 3 k, false, t.carry, t.zero⟩ t.mnemonic)

/-- The driver takes up a program: its first address is presented now, the others wait. -/
def State.load (s : State) (ts : List Tuple) : State :=
  s.present (ts.flatMap (Tuple.addresses s.cfg.opc))

end Sys2Proof.Machine
end

