-- ==== Sys2Proof/Tests/Slice0.lean ====
section
/-! SUPPORT. Tests. Expected results come from spec/: the opcode table's bit patterns, 95_test_vectors.md (sections 2, 3.4,
3.4a, 3.4b, 3.5, 5), and the examples of the family rules. Numeric ones hold under the reference instances only. Then
the smoke tests of the checks, and a witness for every statement that has hypotheses. -/

namespace Sys2Proof.Tests

open Sys2Proof Sys2Proof.Machine

/-- The sample an instruction adds, by running it. -/
def sampled (i : Instr) (s : State) : Option Sample :=
  match exec i s with
  | .next t => t.trace.getLast?
  | .fault _ => none
  | .refused _ => none

/-- The sample a step adds with a word on the wires. -/
def stepped (w : Nat) (s : State) : Option Sample :=
  match step (s.withFetchWord 16 w) with
  | .next t => t.trace.getLast?
  | .fault _ => none
  | .refused _ => none

/-- The reset block with another configuration. -/
def resetWith (c : Cfg) : State := { State.reset with cfg := c }

/-- OPC_ALT of section 3.4b: 15 - OPC_REF. -/
def opcAlt : Opc :=
  ⟨{ lda := 15, add := 14, sub := 13, sta := 12, mvi := 11, inc := 10, dec := 9, jc := 8
     jnc := 7, jz := 6, jnz := 5, jmp := 4, out := 3, hlt := 2, nop := 1, cmp := 0 }, by decide⟩

def altCfg : Cfg := { referenceCfg with opc := opcAlt }

def jncJumpCfg : Cfg := { referenceCfg with jncBase2 := .uopJump }

/-! ## Decoding: one word per row, written from the table's pattern "zch" opcode "sss" -/

theorem test_decode_lda : decodeTableWord 16 0b1010000010 = some (.lda ⟨2#3, true, false, true⟩) := by decide
theorem test_decode_add : decodeTableWord 16 0b0100001101 = some (.add ⟨5#3, false, true, false⟩) := by decide
theorem test_decode_sub : decodeTableWord 16 0b1100010100 = some (.sub ⟨4#3, false, true, true⟩) := by decide
theorem test_decode_sta : decodeTableWord 16 0b0010011011 = some (.sta ⟨3#3, true, false, false⟩) := by decide
theorem test_decode_mvi : decodeTableWord 16 0b1010100010 = some (.mvi ⟨2#3, true, false, true⟩) := by decide
theorem test_decode_inc : decodeTableWord 16 0b0100101101 = some (.inc ⟨5#3, false, true, false⟩) := by decide
theorem test_decode_dec : decodeTableWord 16 0b1100110100 = some (.dec ⟨4#3, false, true, true⟩) := by decide
theorem test_decode_jc : decodeTableWord 16 0b0010111011 = some (.jc ⟨3#3, true, false, false⟩) := by decide
theorem test_decode_jnc : decodeTableWord 16 0b1011000010 = some (.jnc ⟨2#3, true, false, true⟩) := by decide
theorem test_decode_jz : decodeTableWord 16 0b0101001101 = some (.jz ⟨5#3, false, true, false⟩) := by decide
theorem test_decode_jnz : decodeTableWord 16 0b1101010100 = some (.jnz ⟨4#3, false, true, true⟩) := by decide
theorem test_decode_jmp : decodeTableWord 16 0b0011011011 = some (.jmp ⟨3#3, true, false, false⟩) := by decide
theorem test_decode_out : decodeTableWord 16 0b1011100010 = some (.out ⟨2#3, true, false, true⟩) := by decide
theorem test_decode_hlt : decodeTableWord 16 0b0101101101 = some (.hlt ⟨5#3, false, true, false⟩) := by decide
theorem test_decode_nop : decodeTableWord 16 0b1101110100 = some (.nop ⟨4#3, false, true, true⟩) := by decide
theorem test_decode_cmp : decodeTableWord 16 0b0011111011 = some (.cmp ⟨3#3, true, false, false⟩) := by decide
theorem test_decode_rejects_above : decodeWord opcRef 0x400 = .error .aboveLogicalSpace := by decide
theorem test_decode_rejects_no_address : decodeWord opcRef 0x2000 = .error .noSuchAddress := by decide

/-! ## The address decoder (section 2) -/

theorem test_fields_24A : decodeFields 0x24A#10 = ⟨2#3, 9#4, false, false, true⟩ := by decide
theorem test_fields_1BD : decodeFields 0x1BD#10 = ⟨5#3, 7#4, true, true, false⟩ := by decide
theorem test_fields_37E : decodeFields 0x37E#10 = ⟨6#3, 15#4, false, true, true⟩ := by decide
theorem test_encode_2CA : encodeFields ⟨2#3, 9#4, true, false, true⟩ = 0x2CA#10 := by decide
theorem test_encode_2D5 : encodeFields ⟨5#3, 10#4, true, false, true⟩ = 0x2D5#10 := by decide

/-! ## One read per instruction (examples of R150 to R222; sections 3.4, 3.4a) -/

theorem test_read_lda_3 : sampled (.lda ⟨3#3, true, false, false⟩) State.reset = some ⟨0x12#8, 0x1200#16⟩ := by decide
theorem test_read_add_4 : sampled (.add ⟨4#3, false, true, true⟩) State.reset = some ⟨0x81#8, 0x0281#16⟩ := by decide
theorem test_read_sub_4 : sampled (.sub ⟨4#3, true, false, false⟩) State.reset = some ⟨0x02#8, 0x02C1#16⟩ := by decide
theorem test_read_sta_3 : sampled (.sta ⟨3#3, true, false, true⟩) State.reset = some ⟨0x21#8, 0x2100#16⟩ := by decide
theorem test_read_cmp_4 : sampled (.cmp ⟨4#3, false, false, false⟩) State.reset = some ⟨0x41#8, 0x0041#16⟩ := by decide
theorem test_read_mvi_2 : sampled (.mvi ⟨2#3, true, false, false⟩) State.reset = some ⟨0x0A#8, 0x0A00#16⟩ := by decide
theorem test_read_inc_3 : sampled (.inc ⟨3#3, false, false, false⟩) State.reset = some ⟨0x81#8, 0x0281#16⟩ := by decide
theorem test_read_dec_3 : sampled (.dec ⟨3#3, false, true, false⟩) State.reset = some ⟨0xC1#8, 0x02C1#16⟩ := by decide
theorem test_read_jmp_2 : sampled (.jmp ⟨2#3, false, false, false⟩) State.reset = some ⟨0x02#8, 0x0802#16⟩ := by decide
theorem test_read_jc_2 : sampled (.jc ⟨2#3, true, true, false⟩) State.reset = some ⟨0x08#8, 0x0802#16⟩ := by decide
theorem test_read_jnc_2 : sampled (.jnc ⟨2#3, false, false, false⟩) State.reset = some ⟨0x00#8, 0x0000#16⟩ := by decide
theorem test_read_jz_2 : sampled (.jz ⟨2#3, false, false, true⟩) State.reset = some ⟨0x02#8, 0x0802#16⟩ := by decide
theorem test_read_jnz_2 : sampled (.jnz ⟨2#3, true, false, false⟩) State.reset = some ⟨0x08#8, 0x0802#16⟩ := by decide
theorem test_read_out_2 : sampled (.out ⟨2#3, false, false, false⟩) State.reset = some ⟨0x10#8, 0x0110#16⟩ := by decide
theorem test_read_hlt_2 : sampled (.hlt ⟨2#3, true, false, false⟩) State.reset = some ⟨0x80#8, 0x8000#16⟩ := by decide
theorem test_read_nop_0 : sampled (.nop ⟨0#3, true, false, false⟩) State.reset = some ⟨0x40#8, 0x4004#16⟩ := by decide
theorem test_corner_lda_0 : sampled (.lda ⟨0#3, true, true, true⟩) State.reset = some ⟨0x40#8, 0x4004#16⟩ := by decide
theorem test_corner_jc_2 : sampled (.jc ⟨2#3, false, false, true⟩) State.reset = some ⟨0x00#8, 0x0000#16⟩ := by decide
theorem test_corner_jz_2 : sampled (.jz ⟨2#3, true, true, false⟩) State.reset = some ⟨0x00#8, 0x0000#16⟩ := by decide
theorem test_corner_jnz_2 : sampled (.jnz ⟨2#3, false, true, true⟩) State.reset = some ⟨0x00#8, 0x0000#16⟩ := by decide
theorem test_corner_jz_3 : sampled (.jz ⟨3#3, false, false, true⟩) State.reset = some ⟨0x00#8, 0x0000#16⟩ := by decide
theorem test_corner_hlt_7 : sampled (.hlt ⟨7#3, true, true, true⟩) State.reset = some ⟨0x00#8, 0x0000#16⟩ := by decide
theorem test_corner_jnz_0 : sampled (.jnz ⟨0#3, false, false, true⟩) State.reset = some ⟨0x04#8, 0x4004#16⟩ := by decide
theorem test_corner_add_5 : sampled (.add ⟨5#3, false, false, false⟩) State.reset = some ⟨0x00#8, 0x0000#16⟩ := by decide

/-! ## Other parameters: OPC_ALT (section 3.4b) and JNC_BASE2 = UOP_JUMP (section 3.4) -/

theorem test_alt_jz : stepped 0x2B2 (resetWith altCfg) = some ⟨0x08#8, 0x0802#16⟩ := by decide
theorem test_alt_jc : stepped 0x142 (resetWith altCfg) = some ⟨0x02#8, 0x0802#16⟩ := by decide
theorem test_alt_sub : stepped 0x3E9 (resetWith altCfg) = some ⟨0x14#8, 0x1408#16⟩ := by decide
theorem test_alt_dec_filler : stepped 0x0CE (resetWith altCfg) = some ⟨0x00#8, 0x0000#16⟩ := by decide
theorem test_jnc_jump : stepped 0x3C2 (resetWith jncJumpCfg) = some ⟨0x08#8, 0x0802#16⟩ := by decide

/-! ## One step on the wires (sections 3.5 and 5) -/

theorem test_step_05A : stepped 0x05A State.reset = some ⟨0x02#8, 0x0802#16⟩ := by decide
theorem test_step_3FC : stepped 0x3FC State.reset = some ⟨0x00#8, 0x0041#16⟩ := by decide
/-- X14: an address above the logical space whose low ten bits would be a jump. The composite still sees the jump. -/
theorem test_step_65A : stepped 0x65A State.reset = some ⟨0x00#8, 0x0802#16⟩ := by decide
theorem test_rom_last : romByte referenceCfg 0x1FFF#13 = 0x00#8 := by decide
/-- Line 2C0 of the dump of section 5. -/
theorem test_rom_line_2C0 : ((List.range 16).map fun k => romByte referenceCfg (BitVec.ofNat 13 (0x2C0 + k))) =
    [0x40, 0x14, 0, 0, 0, 0, 0, 0, 0x40, 0x14, 0x08, 0, 0, 0, 0, 0] := by decide
/-- Program 1, tuple 3 (section 4): the low addresses that STA with carry set presents. -/
theorem test_driver_sta : Tuple.addresses opcRef ⟨.sta, true, false⟩ =
    [0x118#13, 0x119#13, 0x11A#13, 0x11B#13, 0x11C#13, 0x11D#13] := by decide
/-- A pending input is presented when the step ends, and sampled by the next step only. -/
theorem test_step_advances : step (State.reset.present [0x05A#13, 0x24A#13]) =
    .next { State.reset with addr := 0x24A#13, pending := [], trace := [⟨0x02#8, 0x0802#16⟩] } := by rfl

/-! ## Lines (R90, R93, R94) -/

theorem test_lines_fetch1 : linesOf referenceCfg .fetch1 = [.ro, .ii, .ce] := by decide
theorem test_lines_cmp : linesOf referenceCfg .cmp = [.su, .fi] := by decide
theorem test_flag_hlt : lineFlag referenceCfg .hlt = 0x8000#16 := by decide
theorem test_halves : hiByte 0x02C1#16 = 0x02#8 ∧ loByte 0x02C1#16 = 0xC1#8 := by decide
theorem test_reference_meets_R92 : (referenceCfg.k2 && referenceCfg.k3 && referenceCfg.k4 && referenceCfg.k5 &&
    referenceCfg.k6 && referenceCfg.k7 && referenceCfg.k8 && referenceCfg.k9 && referenceCfg.k10 &&
    referenceCfg.k11) = true := by decide

/-! ## The checks refuse an ill-formed term -/

/-- The reference words with some changed. -/
def withCw (w : CwMap) : Cfg := { referenceCfg with cw := w }

theorem test_wf_content_refuses_6 : hasContent 6#3 = false := by decide
theorem test_wf_opc_refuses_two_alike : OpcMap.bijective { opcRefMap with add := 0 } = false := by decide
theorem test_wf_lines_refuse_two_alike : LineMap.injective { lineBitRefMap with fi := 15 } = false := by decide
theorem test_wf_k2_refuses : (withCw { cwRef with halt := 0x4000 }).k2 = false := by decide
theorem test_wf_k3_refuses : (withCw { cwRef with jump := 0x0800 }).k3 = false := by decide
theorem test_wf_k4_refuses : (withCw { cwRef with marIr := 0x0800 }).k4 = false := by decide
theorem test_wf_k5_refuses : (withCw { cwRef with fetch1 := 0x1400 }).k5 = false := by decide
theorem test_wf_k6_refuses : (withCw { cwRef with aluSub := 0x02C0 }).k6 = false := by decide
theorem test_wf_k7_refuses : (withCw { cwRef with aluAdd := 0x02C1 }).k7 = false := by decide
theorem test_wf_k8_refuses : (withCw { cwRef with cmp := 0x0241 }).k8 = false := by decide
theorem test_wf_k9_refuses : (withCw { cwRef with outA := 0x8110 }).k9 = false := by decide
theorem test_wf_k10_refuses : (withCw { cwRef with ramA := 0 }).k10 = false := by decide
theorem test_wf_k11_refuses : (withCw { cwRef with fetch0 := 0x4005 }).k11 = false := by decide
theorem test_wf_memory_refuses_unsorted : ¬ Memory.wf referenceCfg [(5, 0xAA#8), (4, 0xAA#8)] := by decide
theorem test_wf_memory_refuses_beyond : ¬ Memory.wf referenceCfg [(8192, 0xAA#8)] := by decide
theorem test_wf_memory_refuses_specified_byte : ¬ Memory.wf referenceCfg [(0, 0x04#8)] := by decide

/-! ## Images with a faulted byte (R249, R250) -/

/-- The reset block whose two devices hold 0xAA at 0x083, where the specified image holds 0x12. -/
def faulted : State := { State.reset with imgHi := [(0x083, 0xAA#8)], imgLo := [(0x083, 0xAA#8)] }

theorem test_faulted_read : sampled (.lda ⟨3#3, true, false, false⟩) faulted = some ⟨0xAA#8, 0xAA00#16⟩ := by decide
theorem test_write_back_unlists : Memory.write referenceCfg [(0x083, 0xAA#8)] 0x083#13 0x12#8 = [] := by decide

/-! ## Witnesses: a concrete case for every statement with hypotheses, clause by clause -/

/-- For the sixteen PresentsItsWords, StepSamplesTheLiveOutputs and RunSamplesThePureFunctionPointwise. -/
theorem witness_imageOk_reset : ImageOk State.reset := fun a => ⟨Memory.read_nil _ a, Memory.read_nil _ a⟩
/-- The same premise under another numbering, other inputs and a non-empty trace. -/
theorem witness_imageOk_other :
    ImageOk { resetWith altCfg with addr := 0x1FFF#13, pending := [0#13], trace := [⟨0#8, 0#16⟩] } :=
  fun a => ⟨Memory.read_nil _ a, Memory.read_nil _ a⟩
/-- The premises of the flag and line clauses: K6, K7, K8, K11 hold of a configuration. -/
theorem witness_flag_clauses : State.reset.cfg.k6 = true ∧ State.reset.cfg.k7 = true ∧ State.reset.cfg.k8 = true ∧
    State.reset.cfg.k11 = true := by decide
theorem witness_EncodeDecodeInstruction :
    decode opcRef 0x3FF#13 = .ok (.cmp ⟨7#3, true, true, true⟩) := by decide
theorem witness_DecodeAnswersExactlyBelow1024 :
    decode opcRef 1023#13 = .ok (.cmp ⟨7#3, true, true, true⟩) ∧ 1024 ≤ (1024#13).toNat := by decide
theorem witness_FinalWordByCases_otherStep : (1#3 ≠ 2#3) ∧ (3#3 ≠ 2#3) := by decide
theorem witness_FinalWordByCases_otherOpcode : 11#4 ≠ referenceCfg.opc.num .jz ∧ 11#4 ≠ referenceCfg.opc.num .jnz ∧
    11#4 ≠ referenceCfg.opc.num .jc := by decide
theorem witness_FlagsMatterOnlyForThreeJumps :
    ¬(3#3 = 2#3 ∧ (9#4 = referenceCfg.opc.num .jz ∨ 9#4 = referenceCfg.opc.num .jnz)) ∧
    ¬(2#3 = 2#3 ∧ 9#4 = referenceCfg.opc.num .jc) ∧ referenceCfg.word .jump ≠ 0#16 := by decide
theorem witness_RomByteByRegion_above : (0x400#13).extractLsb' 10 3 ≠ 0#3 := by decide
theorem witness_RomByteByRegion_filler : (0x006#13).extractLsb' 10 3 = 0#3 ∧
    6 ≤ (decodeFields ((0x006#13).extractLsb' 0 10)).step.toNat := by decide
theorem witness_RomByteByRegion_content : (0x3FD#13).extractLsb' 10 3 = 0#3 ∧
    (decodeFields ((0x3FD#13).extractLsb' 0 10)).step.toNat ≤ 5 := by decide
theorem witness_ZeroFillAboveAndAtFillerSteps : 1024 ≤ (1024#13).toNat ∧
    (1023#13).toNat < 1024 ∧ 6 ≤ (1023#13).toNat % 8 ∧
    (1021#13).toNat < 1024 ∧ (1021#13).toNat % 8 ≤ 5 := by decide
theorem witness_ControlWordIsTheFinalWord : (5#3).toNat ≤ 5 ∧ 6 ≤ (6#3).toNat := by decide
theorem witness_ByteOrderIsLowThenHigh128Apart : (5#3).toNat ≤ 5 := by decide
theorem witness_JumpFamilyTruthTable : Mnemonic.jnc ∈ [Mnemonic.jmp, .jc, .jnc, .jz, .jnz] ∧ 3 ≤ (3#3).toNat := by decide
/-- For InstructionFrame, SampledByteIsTheSelectedHalf, ReadsDoNotDisturbEachOther. -/
theorem witness_exec_next : ∃ t, exec (.jz ⟨2#3, true, false, true⟩) State.reset = .next t := ⟨_, rfl⟩
theorem witness_StepRunsTheDecodedInstruction :
    decode State.reset.cfg.opc State.reset.addr = .ok (.lda ⟨0#3, false, false, false⟩) := by decide
theorem witness_StepRunsTheDecodedInstruction_pending : (State.reset.present [0#13, 1#13]).pending = 1#13 :: [] ∧
    State.reset.pending = [] := by decide
theorem witness_StepAboveTheLogicalSpaceReadsZero :
    ImageOk (State.reset.withFetchWord 16 0x400) ∧ 1024 ≤ (State.reset.withFetchWord 16 0x400).addr.toNat :=
  ⟨fun a => ⟨Memory.read_nil _ a, Memory.read_nil _ a⟩, by decide⟩
/-- For StepKeepsTheInvariant, SpecifiedImageListsNothing and ReadsDoNotDisturbEachOther. -/
theorem witness_stateInv_step : StateInv State.reset ∧ ∃ t, step State.reset = .next t :=
  ⟨⟨Memory.wf_nil _, Memory.wf_nil _, rfl⟩, _, rfl⟩
/-- The invariant also holds of images with a faulted byte, which are not the specified ones. -/
theorem witness_stateInv_faulted : StateInv faulted := by unfold StateInv; decide
theorem witness_StepKeepsTheTraceLawful :
    ImageOk State.reset ∧ TraceOfUops State.reset ∧ ∃ t, step State.reset = .next t :=
  ⟨witness_imageOk_reset, fun _ hx => absurd hx List.not_mem_nil, _, rfl⟩
theorem witness_ContentWritesInAnyOrderAndRepeated :
    ∀ a : Addr13, a ∈ [1#13, 2#13] ↔ a ∈ [2#13, 1#13, 2#13] := by
  intro a; simp only [List.mem_cons, List.not_mem_nil, or_false]; tauto
/-- A run without a fault, whose log is empty. -/
theorem witness_FaultFreeLogMeansSpecifiedImage_noFault :
    ∃ g, generate referenceCfg true [] [] (fun _ => 0xAA#8) [] = some g ∧ g.log = [] :=
  ⟨_, rfl, by rw [log_writeContents_nil, log_zeroFill_nil]⟩
/-- A run with faults at the content address 0x3FD in both passes, and where the log clauses meet: 1021 has content, 1022
and 1024 have none. -/
theorem witness_FaultFreeLogMeansSpecifiedImage_fault :
    (∃ g, generate referenceCfg true [0x3FD#13, 0x3FE#13, 0x400#13] [0x3FD#13] (fun _ => 0xAA#8) [] = some g) ∧
    0#13 ∉ [0x3FD#13, 0x3FE#13, 0x400#13] ∧ 0#13 ∉ [0x3FD#13] ∧
    (0x3FD#13).toNat < 1024 ∧ hasContent (wires 0x3FD#13).step = true ∧
    hasContent (wires 0x3FE#13).step = false ∧ 1024 ≤ (0x400#13).toNat := ⟨⟨_, rfl⟩, by decide⟩
/-- R250: a fill write that faults, then a content write at the same address that completes; the byte is still the free
one, and the address is logged once. -/
theorem test_logged_byte_stays_free :
    let g := writeAt referenceCfg [] (fun _ => 0xAA#8)
      (writeAt referenceCfg [0x083#13] (fun _ => 0xAA#8) ⟨[], []⟩ 0x083#13 0#8) 0x083#13 0x12#8
    g.log = [(0x083#13, 0#8)] ∧ Memory.read referenceCfg g.image 0x083#13 = 0xAA#8 := by decide
/-- R249: without a fault the later write is what the address holds. -/
theorem test_later_write_wins :
    let g := writeAt referenceCfg [] (fun _ => 0xAA#8)
      (writeAt referenceCfg [] (fun _ => 0xAA#8) ⟨[], []⟩ 0x083#13 0#8) 0x083#13 0x12#8
    g.log = [] ∧ Memory.read referenceCfg g.image 0x083#13 = 0x12#8 := by decide
/-- Two canonical images that read alike and are not the specified one, one of them made by writes in falling order. -/
theorem witness_SpecifiedImageListsNothing_alike :
    Memory.wf referenceCfg [(0x083, 0xAA#8), (0x084, 0xBB#8)] ∧
    Memory.write referenceCfg (Memory.write referenceCfg [] 0x084#13 0xBB#8) 0x083#13 0xAA#8 =
      [(0x083, 0xAA#8), (0x084, 0xBB#8)] := by decide
theorem witness_CensusOfTheImage : (∀ u ∈ Uop.all, ∀ v ∈ Uop.all, referenceCfg.word u = referenceCfg.word v → u = v) ∧
    ((.jc, 2#3, true, false) : Mnemonic × BitVec 3 × Bool × Bool) ∈ censusTuples := by decide
theorem witness_FaultedByteIsPresented :
    Memory.listed (faulted.image true) (encode faulted.cfg.opc (.lda ⟨3#3, true, false, false⟩)).toNat =
      some 0xAA#8 := by decide
theorem witness_OnlyHltAtStepTwoAssertsHalt : ImageOk State.reset ∧ State.reset.cfg.k2 = true ∧
    State.reset.cfg.k9 = true ∧ ∃ t, exec (.hlt ⟨2#3, true, false, false⟩) State.reset = .next t :=
  ⟨witness_imageOk_reset, by decide, by decide, _, rfl⟩
theorem witness_OnlyTakenJumpsAssertJ : ImageOk State.reset ∧ State.reset.cfg.k3 = true ∧
    State.reset.cfg.k9 = true ∧ ∃ t, exec (.jnz ⟨2#3, true, false, false⟩) State.reset = .next t :=
  ⟨witness_imageOk_reset, by decide, by decide, _, rfl⟩
theorem witness_FlagLoadsAreTheFiveAluSteps : ImageOk State.reset ∧ State.reset.cfg.k6 = true ∧
    State.reset.cfg.k8 = true ∧ State.reset.cfg.k11 = true ∧
    ∃ t, exec (.cmp ⟨4#3, true, false, false⟩) State.reset = .next t :=
  ⟨witness_imageOk_reset, by decide, by decide, by decide, _, rfl⟩
/-- Its configuration premises, and an instruction and step for each of its clauses. -/
theorem witness_StepsAssertTheirLines : State.reset.cfg.k4 = true ∧ State.reset.cfg.k5 = true ∧
    State.reset.cfg.k6 = true ∧ State.reset.cfg.k7 = true ∧ State.reset.cfg.k10 = true := by decide
theorem witness_StepsAssertTheirLines_runs : ∀ i ∈ [Instr.nop ⟨0#3, true, false, false⟩, .cmp ⟨2#3, true, false, false⟩,
    .hlt ⟨1#3, true, false, false⟩, .add ⟨4#3, true, false, false⟩, .dec ⟨3#3, true, false, false⟩],
    ∃ t, exec i State.reset = .next t := fun i _ => ⟨_, exec_eq_readAt i State.reset⟩
/-- The lines of two words that K4 speaks of (R93). -/
theorem test_fetch_lines : linesOf referenceCfg .fetch0 = [.mi, .co] ∧ linesOf referenceCfg .marIr = [.mi, .io] := by decide

end Sys2Proof.Tests
end

section
/-! PROOFS. The family 00_scope.md: a step is one sampled read at the inputs present, and a run answers each input on its
own. The lemmas about the address codec and about one step are for the other families too. -/

namespace Sys2Proof

/-! ## The address of what decodes -/

/-- Where each field of `Encode` stands (R71, R74). -/
theorem getLsbD_encodeFields (f : Fields) {i : Nat} (hi : i < 10) :
    (encodeFields f).getLsbD i =
      if i < 3 then f.step.getLsbD i
      else if i < 7 then f.opcode.getLsbD (i - 3)
      else if i = 7 then f.half
      else if i = 8 then f.carry
      else f.zero := by
  change (BitVec.ofBool f.zero ++ BitVec.ofBool f.carry ++ BitVec.ofBool f.half ++ f.opcode ++ f.step :
    BitVec (1 + 1 + 1 + 4 + 3)).getLsbD i = _
  simp only [BitVec.getLsbD_append, BitVec.getLsbD_ofBool]
  interval_cases i <;> rfl

/-- `Encode` undoes `Decode` (R75): each bit of the address lies in exactly one of the five fields. -/
@[simp] theorem encodeFields_decodeFields (a : Addr10) : encodeFields (decodeFields a) = a := by
  refine BitVec.eq_of_getLsbD_eq fun i hi => ?_
  rw [getLsbD_encodeFields _ hi]
  simp only [decodeFields, BitVec.getLsbD_extractLsb']
  grind

/-- Whatever decodes is the address of the instruction it decodes to (R76, R82). -/
theorem encode_of_decode {o : Opc} {a : Addr13} {i : Instr} (h : decode o a = .ok i) : encode o i = a := by
  by_cases hl : Addr13.logical a = true
  · rw [decode, if_pos hl] at h
    cases h
    simp only [encode, Instr.fields, Instr.operands_ofMnemonic, Instr.mnemonic_ofMnemonic, Opc.num_mnemonicOf]
    exact (congrArg Addr10.physical (encodeFields_decodeFields _)).trans (Addr13.physical_low hl)
  · rw [decode, if_neg hl] at h
    cases h

end Sys2Proof

namespace Sys2Proof.Machine

/-! ## One step -/

theorem State.advance_of_pending {s : State} {a : Addr13} {as : List Addr13} (h : s.pending = a :: as) :
    s.advance = { s with addr := a, pending := as } := by
  rw [State.advance, h, State.present]

theorem State.advance_of_no_pending {s : State} (h : s.pending = []) : s.advance = s := by
  rw [State.advance, h, State.present_nil]

theorem step_of_decode_ok {s : State} {i : Instr} (h : decode s.cfg.opc s.addr = .ok i) :
    step s = exec i s.advance := by
  rw [step, h]

theorem step_of_decode_error {s : State} {e : Reject} (h : decode s.cfg.opc s.addr = .error e) :
    step s = readAt s.addr s.advance := by
  rw [step, h]

/-- Whether or not the inputs present decode, a step samples at them and the driver moves on (R241, R274). -/
theorem step_eq_observe (s : State) : step s = .next (s.advance.observe (s.sampleAt s.addr)) := by
  have hread : step s = readAt s.addr s.advance := by
    cases h : decode s.cfg.opc s.addr with
    | ok i => rw [step_of_decode_ok h, exec_eq_readAt, State.advance_cfg, encode_of_decode h]
    | error e => exact step_of_decode_error h
  rw [hread, readAt, State.sampleAt_advance]

/-- With the specified images the driver samples the pure function of the address (R122, R124, R267). -/
theorem State.sampleAt_of_imageOk {s : State} (h : ImageOk s) (a : Addr13) :
    s.sampleAt a = specSample s.cfg a := by
  have hbyte : s.deviceByte a = romByte s.cfg a := by
    unfold State.deviceByte State.image
    split
    · exact (h a).1
    · exact (h a).2
  simp only [State.sampleAt, specSample, State.compositeWord, controlWord, hbyte, (h _).1, (h _).2]

/-! ## A run over presented inputs -/

/-- A run whose first step completes goes on from there. -/
theorem run_succ {M : Host.Core} {k : Nat} {s t : M.State} (h : M.step s = .next t) :
    M.run (k + 1) s = M.run k t := by
  rw [Host.Core.run, h]

/-- The state after the addresses `a :: as` were presented and each was sampled: the last one is still present. -/
def State.afterReads (s : State) (a : Addr13) (as : List Addr13) : State :=
  { s with addr := as.getLastD a, pending := [], trace := s.trace ++ (a :: as).map s.sampleAt }

/-- The first address read, the rest is the same reading: no sample taken enters a later one (R46). -/
theorem State.afterReads_observe (s : State) (a b : Addr13) (bs : List Addr13) :
    (s.observe (s.sampleAt a)).afterReads b bs = s.afterReads a (b :: bs) := by
  have hsample : (s.observe (s.sampleAt a)).sampleAt = s.sampleAt := funext (s.sampleAt_observe _)
  simp only [State.afterReads, hsample, State.observe_cfg, State.observe_imgHi, State.observe_imgLo,
    State.observe_trace, List.map_cons, List.getLastD_cons, List.append_assoc, List.singleton_append]

/-- As many steps as addresses presented sample each of them once, in order, whatever the images hold
(R10, R51). -/
theorem run_present (s : State) (a : Addr13) (as : List Addr13) :
    Sys2Proof.core.run (as.length + 1) (s.present (a :: as)) = .next (s.afterReads a as) := by
  induction as generalizing s a with
  | nil => exact run_succ (step_eq_observe _)
  | cons b bs ih =>
    have hstep : step (s.present (a :: b :: bs)) = .next ((s.observe (s.sampleAt a)).present (b :: bs)) :=
      step_eq_observe _
    calc Sys2Proof.core.run (bs.length + 1 + 1) (s.present (a :: b :: bs))
      _ = Sys2Proof.core.run (bs.length + 1) ((s.observe (s.sampleAt a)).present (b :: bs)) := run_succ hstep
      _ = .next ((s.observe (s.sampleAt a)).afterReads b bs) := ih _ _
      _ = .next (s.afterReads a (b :: bs)) := congrArg _ (State.afterReads_observe s a b bs)

end Sys2Proof.Machine

namespace Sys2Proof.Proofs.Scope

open Sys2Proof Sys2Proof.Machine

/-! ## The statements -/

/-- Settles O44: the decoder's answer picks the branch of `step`, and the driver's list that of `advance`. -/
theorem stepRunsTheDecodedInstruction : Obligations.StepRunsTheDecodedInstruction :=
  fun _ _ h => ⟨step_of_decode_ok h, fun _ _ => State.advance_of_pending, State.advance_of_no_pending⟩

/-- Settles O50: by `run_present` the run samples each address in order, and under `ImageOk` each sample is the pure
function's. -/
theorem runSamplesThePureFunctionPointwise : Obligations.RunSamplesThePureFunctionPointwise := by
  intro s a as hs
  have hmap : (a :: as).map s.sampleAt = (a :: as).map (specSample s.cfg) :=
    List.map_congr_left fun b _ => State.sampleAt_of_imageOk hs b
  exact ⟨s.afterReads a as, run_present s a as, congrArg (s.trace ++ ·) hmap, rfl, rfl, rfl⟩

end Sys2Proof.Proofs.Scope
end

section
/-! PROOFS. The family 10_state.md: a step keeps the configuration and both images, samples the live outputs, and an
image in canonical form is determined by the bytes it reads as. -/

namespace Sys2Proof.Machine

/-! ## The images of a state -/

/-- A step writes nothing that lasts: parameters and images are constant (R25, R51, R53). -/
theorem step_frame {s t : State} (h : step s = .next t) :
    t.cfg = s.cfg ∧ t.imgHi = s.imgHi ∧ t.imgLo = s.imgLo := by
  obtain ⟨a, rfl⟩ := step_next h
  exact ⟨s.advance_cfg, s.advance_imgHi, s.advance_imgLo⟩

/-- The invariant speaks of the configuration and the images only, not of the driver. -/
theorem StateInv.congr {s t : State} (h : StateInv s) (hc : t.cfg = s.cfg) (hh : t.imgHi = s.imgHi)
    (hl : t.imgLo = s.imgLo) : StateInv t := by
  rw [StateInv, hc, hh, hl]
  exact h

/-- Two devices that list no cell hold the specified image (R267). -/
theorem imageOk_of_images_nil {s : State} (hh : s.imgHi = []) (hl : s.imgLo = []) : ImageOk s := by
  intro a
  rw [hh, hl]
  exact ⟨Memory.read_nil _ a, Memory.read_nil _ a⟩

/-! ## An image in canonical form -/

/-- No address stands twice in rising order, so every cell is the one listed at its address. -/
theorem Memory.listed_eq_some_iff {m : Memory} (h : m.Pairwise fun x y => x.1 < y.1) (k : Nat) (b : Byte) :
    Memory.listed m k = some b ↔ (k, b) ∈ m := by
  refine ⟨Memory.mem_of_listed, fun hmem => ?_⟩
  induction m with
  | nil => exact absurd hmem List.not_mem_nil
  | cons x m ih =>
    obtain ⟨hx, hm⟩ := List.pairwise_cons.mp h
    rcases List.mem_cons.mp hmem with rfl | hmem
    · exact Memory.listed_head k b m
    · rw [Memory.listed, if_neg (hx _ hmem).ne]
      exact ih hm hmem

/-- The cells of a canonical image are the bytes that do not read as the specified ones. -/
theorem Memory.mem_iff_read {c : Cfg} {m : Memory} (h : Memory.wf c m) (x : Host.Cell) :
    x ∈ m ↔ x.1 < 8192 ∧ x.2 ≠ unlisted c x.1 ∧ Memory.read c m (BitVec.ofNat 13 x.1) = x.2 := by
  obtain ⟨k, b⟩ := x
  obtain ⟨hsorted, hcells⟩ := h
  have hread (hk : k < 8192) :
      Memory.read c m (BitVec.ofNat 13 k) = (Memory.listed m k).getD (unlisted c k) := by
    rw [Memory.read, BitVec.toNat_ofNat, Nat.mod_eq_of_lt hk]
  constructor
  · intro hmem
    obtain ⟨hk, hb⟩ := hcells _ hmem
    refine ⟨hk, hb, ?_⟩
    rw [hread hk, (Memory.listed_eq_some_iff hsorted k b).mpr hmem, Option.getD_some]
  · rintro ⟨hk, hb, hval⟩
    rw [hread hk] at hval
    cases hlist : Memory.listed m k with
    | none => exact absurd (by simpa [hlist] using hval.symm) hb
    | some w =>
      rw [hlist, Option.getD_some] at hval
      exact Memory.mem_of_listed (hlist.trans (congrArg some hval))

/-- Canonical images that read alike are equal: they have the same cells, in the same order. -/
theorem Memory.eq_of_read_eq {c : Cfg} {m n : Memory} (hm : Memory.wf c m) (hn : Memory.wf c n)
    (h : ∀ a : Addr13, Memory.read c m a = Memory.read c n a) : m = n := by
  have hasymm : Std.Asymm fun x y : Host.Cell => x.1 < y.1 := ⟨fun _ _ => Nat.lt_asymm⟩
  refine hm.1.eq_of_mem_iff hn.1 fun x => ?_
  rw [Memory.mem_iff_read hm, Memory.mem_iff_read hn, h]

/-- A canonical image that reads as the specified one everywhere lists no cell. -/
theorem Memory.eq_nil_of_read_eq_romByte {c : Cfg} {m : Memory} (hm : Memory.wf c m)
    (h : ∀ a : Addr13, Memory.read c m a = romByte c a) : m = [] :=
  Memory.eq_of_read_eq hm (Memory.wf_nil c) fun a => (h a).trans (Memory.read_nil c a).symm

end Sys2Proof.Machine

namespace Sys2Proof.Proofs.State

open Sys2Proof Sys2Proof.Machine

/-! ## The statements -/

/-- Settles O47: by `step_frame` a step leaves alone everything the invariant and the reads speak of. -/
theorem stepKeepsTheInvariant : Obligations.StepKeepsTheInvariant := by
  intro s t hinv hstep
  obtain ⟨hc, hh, hl⟩ := step_frame hstep
  refine ⟨hinv.congr hc hh hl, hc, fun a => ?_⟩
  rw [hc, hh, hl]
  exact ⟨rfl, rfl⟩

/-- Settles O46: the two outputs are the sample at the inputs present, which under `ImageOk` is the specified one. -/
theorem stepSamplesTheLiveOutputs : Obligations.StepSamplesTheLiveOutputs := by
  intro s
  refine ⟨step_eq_observe s, fun hok => ?_⟩
  have hsample : s.sampleAt s.addr = specSample s.cfg s.addr := State.sampleAt_of_imageOk hok s.addr
  exact ⟨congrArg Sample.byte hsample, congrArg Sample.word hsample⟩

/-- Settles O54: a canonical image is determined by its reads, and the specified image is that of the empty list. -/
theorem specifiedImageListsNothing : Obligations.SpecifiedImageListsNothing := by
  refine ⟨fun _ _ _ hm hn => Memory.eq_of_read_eq hm hn, fun s hinv => ?_⟩
  obtain ⟨hwfHi, hwfLo, -⟩ := hinv
  constructor
  · intro hok
    exact ⟨Memory.eq_nil_of_read_eq_romByte hwfHi fun a => (hok a).1,
      Memory.eq_nil_of_read_eq_romByte hwfLo fun a => (hok a).2⟩
  · rintro ⟨hh, hl⟩
    exact imageOk_of_images_nil hh hl

/-- Settles O48: at reset neither device lists a cell and the driver has sampled nothing. -/
theorem resetMeetsTheInvariant : Obligations.ResetMeetsTheInvariant :=
  ⟨⟨Memory.wf_nil _, Memory.wf_nil _, rfl⟩, imageOk_of_images_nil rfl rfl,
    fun _ hx => absurd hx List.not_mem_nil⟩

end Sys2Proof.Proofs.State
end

section
/-! PROOFS. The family 20_memory.md: what the specified image holds at each address, and that no read disturbs the
images. The lemmas about the address codec and about `RomByte` by region are for the other families too. -/

namespace Sys2Proof

/-! ## The address codec -/

/-- `Decode` undoes `Encode` (R75). -/
@[simp] theorem decodeFields_encodeFields (f : Fields) : decodeFields (encodeFields f) = f := by
  have hbit {i : Nat} (hi : i < 10) := getLsbD_encodeFields f hi
  obtain ⟨step, opcode, half, carry, zero⟩ := f
  simp only [decodeFields, Fields.mk.injEq]
  refine ⟨?_, ?_, hbit (by decide), hbit (by decide), hbit (by decide)⟩
  · ext i hi
    rw [BitVec.getElem_extractLsb', hbit (by omega), if_pos (by omega), Nat.zero_add, BitVec.getLsbD_eq_getElem]
  · ext i hi
    rw [BitVec.getElem_extractLsb', hbit (by omega), if_neg (by omega), if_pos (by omega), Nat.add_sub_cancel_left,
      BitVec.getLsbD_eq_getElem]

/-- A concatenation as a sum of place values: its two parts do not overlap. -/
theorem toNat_append_eq_add {v w : Nat} (x : BitVec v) (y : BitVec w) :
    (x ++ y).toNat = x.toNat * 2 ^ w + y.toNat := by
  rw [BitVec.toNat_append, ← Nat.shiftLeft_add_eq_or_of_lt y.isLt, Nat.shiftLeft_eq]

/-- `Encode` as a sum of place values (R74). -/
theorem toNat_encodeFields (f : Fields) :
    (encodeFields f).toNat =
      f.zero.toNat * 512 + f.carry.toNat * 256 + f.half.toNat * 128 + f.opcode.toNat * 8 + f.step.toNat := by
  simp only [encodeFields, toNat_append_eq_add, BitVec.toNat_ofBool]
  omega

end Sys2Proof

namespace Sys2Proof.Machine

/-! ## The specified image, region by region (R122) -/

/-- The step wires carry a step with content exactly at 0 to 5 modulo 8. -/
theorem hasContent_wires_iff (a : Addr13) : hasContent (wires a).step = true ↔ a.toNat % 8 ≤ 5 := by
  rw [hasContent, decide_eq_true_eq, wires_step_toNat]

/-- The zero fill above the logical space (R47). -/
theorem romByte_of_ge (c : Cfg) {a : Addr13} (h : 1024 ≤ a.toNat) : romByte c a = 0#8 :=
  if_neg (mt (Addr13.logical_iff_lt a).mp (Nat.not_lt.mpr h))

theorem romByte_of_lt (c : Cfg) {a : Addr13} (h : a.toNat < 1024) :
    romByte c a = if hasContent (wires a).step then resolve c (wires a) else 0#8 :=
  if_pos ((Addr13.logical_iff_lt a).mpr h)

/-- The filler steps 6 and 7 (R48). -/
theorem romByte_of_filler (c : Cfg) {a : Addr13} (h : a.toNat < 1024) (hs : 6 ≤ a.toNat % 8) : romByte c a = 0#8 := by
  rw [romByte_of_lt c h, if_neg (mt (hasContent_wires_iff a).mp (by omega))]

theorem romByte_of_content (c : Cfg) {a : Addr13} (h : a.toNat < 1024) (hs : a.toNat % 8 ≤ 5) :
    romByte c a = resolve c (wires a) := by
  rw [romByte_of_lt c h, if_pos ((hasContent_wires_iff a).mpr hs)]

/-- The wires at the physical address of some fields are those fields (R75, R76). -/
@[simp] theorem wires_physical_encodeFields (f : Fields) : wires (Addr10.physical (encodeFields f)) = f := by
  rw [wires, Addr13.low_physical, decodeFields_encodeFields]

/-- At the address of fields whose step has content the image holds their resolved byte (R120, R122). -/
theorem romByte_physical_encodeFields (c : Cfg) {f : Fields} (h : f.step.toNat ≤ 5) :
    romByte c (Addr10.physical (encodeFields f)) = resolve c f := by
  have hlt : (Addr10.physical (encodeFields f)).toNat < 1024 := (Addr13.logical_iff_lt _).mp (Addr13.logical_physical _)
  have hstep : (Addr10.physical (encodeFields f)).toNat % 8 ≤ 5 := by
    rwa [← wires_step_toNat, wires_physical_encodeFields]
  rw [romByte_of_content c hlt hstep, wires_physical_encodeFields]

/-! ## Counting addresses -/

/-- Over whole periods, a property of the residue is counted period by period. -/
theorem countP_range_mul_mod (p : Nat → Bool) (d k : Nat) :
    (List.range (k * d)).countP (fun n => p (n % d)) = k * (List.range d).countP p := by
  induction k with
  | zero => simp
  | succ k ih =>
    have hperiod : ((List.range d).map (k * d + ·)).countP (fun n => p (n % d)) = (List.range d).countP p := by
      rw [List.countP_map]
      refine List.countP_congr fun n hn => ?_
      rw [Function.comp_apply, Nat.mul_add_mod_self_right, Nat.mod_eq_of_lt (List.mem_range.mp hn)]
    rw [Nat.succ_mul, List.range_add, List.countP_append, ih, hperiod, Nat.succ_mul]

/-- Of the numbers below `m + k`, the `k` last ones are `m` or more. -/
theorem countP_range_add_le (m k : Nat) : (List.range (m + k)).countP (fun n => decide (m ≤ n)) = k := by
  have hbelow : (List.range m).countP (fun n => decide (m ≤ n)) = 0 := by simp
  have habove : ((List.range k).map (m + ·)).countP (fun n => decide (m ≤ n)) = k := by simp [Function.comp_def]
  rw [List.range_add, List.countP_append, hbelow, habove, Nat.zero_add]

/-! ## Reads and the state -/

/-- Every instruction completes, with one sample at its own address (R46, R240). -/
theorem exec_eq_observe (i : Instr) (s : State) :
    exec i s = .next (s.observe (s.sampleAt (encode s.cfg.opc i))) :=
  exec_eq_readAt i s

/-- What the driver has sampled before does not enter what an instruction samples. -/
theorem exec_observe (i : Instr) (s : State) (x : Sample) :
    exec i (s.observe x) = .next ((s.observe x).observe (s.sampleAt (encode s.cfg.opc i))) := by
  rw [exec_eq_observe, State.sampleAt_observe, State.observe_cfg]

/-- A step leaves alone what every address samples (R51). -/
theorem sampleAt_of_step {s t : State} (h : step s = .next t) (a : Addr13) : t.sampleAt a = s.sampleAt a := by
  obtain ⟨hc, hh, hl⟩ := step_frame h
  exact State.sampleAt_congr hc hh hl a

/-- An instruction leaves alone what every address samples (R51). -/
theorem sampleAt_of_exec {i : Instr} {s t : State} (h : exec i s = .next t) (a : Addr13) :
    t.sampleAt a = s.sampleAt a := by
  rw [exec_next h, State.sampleAt_observe]

end Sys2Proof.Machine

namespace Sys2Proof.Proofs.Memory

open Sys2Proof Sys2Proof.Machine

/-! ## The statements -/

/-- Settles O16: `RomByte` region by region, and the residues modulo 8 counted over 128 periods. -/
theorem zeroFillAboveAndAtFillerSteps : Obligations.ZeroFillAboveAndAtFillerSteps :=
  ⟨fun c _ => romByte_of_ge c, fun c _ => romByte_of_filler c, fun c _ => romByte_of_content c,
    countP_range_mul_mod (fun r => decide (r ≤ 5)) 8 128, countP_range_mul_mod (fun r => decide (6 ≤ r)) 8 128,
    countP_range_add_le 1024 7168⟩

/-- Settles O18: each half is the resolved byte at its address, and bit 7 of the address has place value 128. -/
theorem byteOrderIsLowThenHigh128Apart : Obligations.ByteOrderIsLowThenHigh128Apart := by
  intro c opcode step carry zero hstep
  refine ⟨romByte_physical_encodeFields c hstep, romByte_physical_encodeFields c hstep, ?_⟩
  simp only [toNat_encodeFields, Bool.toNat_true, Bool.toNat_false]
  omega

/-- Settles O59: a read notes a sample and leaves everything a sample depends on alone, so `run_present` samples each of
two addresses in either order, and `exec_observe` each of two instructions. -/
theorem readsDoNotDisturbEachOther : Obligations.ReadsDoNotDisturbEachOther := by
  refine ⟨?_, fun s a b => ?_, fun i j s => ?_⟩
  · rintro s t (hstep | ⟨i, hexec⟩)
    · exact sampleAt_of_step hstep
    · exact sampleAt_of_exec hexec
  · exact ⟨s.sampleAt a, s.sampleAt b, s.afterReads a [b], s.afterReads b [a], run_present s a [b], rfl,
      run_present s b [a], rfl⟩
  · exact ⟨_, _, exec_eq_observe i s, exec_eq_observe j s, exec_observe i s _, exec_observe j s _, exec_observe i s _⟩

/-- Settles O42: by `exec_next` the next state is the old one with one sample noted. -/
theorem instructionFrame : Obligations.InstructionFrame := by
  intro i s t h
  obtain rfl := exec_next h
  exact ⟨rfl, rfl, rfl, rfl, rfl, fun _ => ⟨rfl, rfl⟩, _, rfl⟩

end Sys2Proof.Proofs.Memory
end

section
/-! PROOFS. The family 30_encoding.md: the codec of addresses and of instructions, the control word as a set of lines,
and the lines that the words sampled assert. The lemmas about `RomByte`, `Final` and `ControlWord` as the words of the
family sequences are for the other families too. -/

namespace Sys2Proof

/-! ## The fields as masks and shifts (R73, R74) -/

/-- A field of an address is the address shifted and masked. -/
theorem setWidth_extractLsb'_eq_and {w n : Nat} (a : BitVec w) (k : Nat) (hn : n ≤ w) :
    (a.extractLsb' k n).setWidth w = (a >>> k) &&& BitVec.ofNat w (2 ^ n - 1) := by
  have hpow : 2 ^ n ≤ 2 ^ w := Nat.pow_le_pow_right (by decide) hn
  have hpos : 0 < 2 ^ n := Nat.two_pow_pos n
  have hmask : (2 ^ n - 1) % 2 ^ w = 2 ^ n - 1 := Nat.mod_eq_of_lt (by omega)
  have hfield : (a.toNat >>> k) % 2 ^ n < 2 ^ w := (Nat.mod_lt _ hpos).trans_le hpow
  apply BitVec.eq_of_toNat_eq
  rw [BitVec.toNat_setWidth, BitVec.extractLsb'_toNat, BitVec.toNat_and, BitVec.toNat_ushiftRight, BitVec.toNat_ofNat,
    hmask, Nat.and_two_pow_sub_one_eq_mod, Nat.mod_eq_of_lt hfield]

/-- A one-bit field of an address is the address shifted and masked. -/
theorem setWidth_ofBool_getLsbD_eq_and {w : Nat} (a : BitVec w) (k : Nat) :
    (BitVec.ofBool (a.getLsbD k)).setWidth w = (a >>> k) &&& 1#w := by
  rw [BitVec.and_one_eq_setWidth_ofBool_getLsbD, BitVec.getLsbD_ushiftRight, Nat.add_zero]

/-- `Encode` is the OR of its shifted fields (R74). -/
theorem encodeFields_eq_or (f : Fields) : encodeFields f =
    ((BitVec.ofBool f.zero).setWidth 10 <<< 9) ||| ((BitVec.ofBool f.carry).setWidth 10 <<< 8) |||
      ((BitVec.ofBool f.half).setWidth 10 <<< 7) ||| (f.opcode.setWidth 10 <<< 3) ||| f.step.setWidth 10 := by
  refine BitVec.eq_of_getLsbD_eq fun i hi => ?_
  rw [getLsbD_encodeFields f hi]
  simp only [BitVec.getLsbD_or, BitVec.getLsbD_shiftLeft, BitVec.getLsbD_setWidth, BitVec.getLsbD_ofBool]
  interval_cases i <;> simp

/-- Masking with 0x078 keeps the opcode field in its place (R72). -/
theorem and_opcodeMask (a : Addr10) : a &&& 0x078#10 = (decodeFields a).opcode.setWidth 10 <<< 3 := by
  refine BitVec.eq_of_getLsbD_eq fun i hi => ?_
  simp only [decodeFields, BitVec.getLsbD_and, BitVec.getLsbD_shiftLeft, BitVec.getLsbD_setWidth,
    BitVec.getLsbD_extractLsb']
  interval_cases i <;> simp

/-- The opcode field in its place determines the opcode. -/
theorem opcode_shiftLeft_injective {v w : BitVec 4} (h : v.setWidth 10 <<< 3 = w.setWidth 10 <<< 3) : v = w := by
  bv_omega

/-- An address holds the opcode field `v` exactly when its masked bits are those of `v` (R82). -/
theorem and_opcodeMask_eq_iff (a : Addr10) (v : BitVec 4) :
    a &&& 0x078#10 = v.setWidth 10 <<< 3 ↔ (decodeFields a).opcode = v := by
  rw [and_opcodeMask]
  exact ⟨opcode_shiftLeft_injective, fun h => h ▸ rfl⟩

/-! ## The decoder on instructions (R76, R82) -/

theorem decode_of_lt (o : Opc) {a : Addr13} (h : a.toNat < 1024) : ∃ i, decode o a = .ok i :=
  ⟨_, if_pos ((Addr13.logical_iff_lt a).mpr h)⟩

theorem decode_of_ge (o : Opc) {a : Addr13} (h : 1024 ≤ a.toNat) : decode o a = .error .aboveLogicalSpace :=
  if_neg (mt (Addr13.logical_iff_lt a).mp (Nat.not_lt.mpr h))

/-- The decoder undoes the encoder: the fields by R75, the mnemonic by the bijection OPC. -/
@[simp] theorem decode_encode (o : Opc) (i : Instr) : decode o (encode o i) = .ok i := by
  rw [decode, encode, if_pos (Addr13.logical_physical _), Addr13.low_physical, decodeFields_encodeFields]
  simp only [Instr.fields, Opc.mnemonicOf_num]
  exact congrArg Except.ok i.ofMnemonic_self

/-! ## The line positions -/

/-- Sixteen lines with distinct positions take all sixteen positions (R5, R87). -/
theorem LineBit.exists_bit (p : LineBit) (v : BitVec 4) : ∃ l, p.bit l = v := by
  have hinj : Function.Injective fun l => (p.bit l).toFin :=
    fun l k h => p.bit_injective (BitVec.eq_of_toFin_eq h)
  have hnodup : (Line.all.map fun l => (p.bit l).toFin).Nodup := List.Nodup.map hinj (by decide)
  have huniv : (Line.all.map fun l => (p.bit l).toFin).toFinset = Finset.univ :=
    Finset.eq_univ_of_card _ (List.toFinset_card_of_nodup hnodup)
  have hmem : v.toFin ∈ (Line.all.map fun l => (p.bit l).toFin).toFinset := huniv ▸ Finset.mem_univ _
  obtain ⟨l, -, hl⟩ := List.mem_map.mp (List.mem_toFinset.mp hmem)
  exact ⟨l, BitVec.eq_of_toFin_eq hl⟩

end Sys2Proof

namespace Sys2Proof.Machine

/-! ## Words and lines (R87, R91) -/

theorem getLsbD_lineFlag (c : Cfg) (l : Line) (i : Nat) :
    (lineFlag c l).getLsbD i = decide ((c.lineBit.bit l).toNat = i) := by
  have hlt : (c.lineBit.bit l).toNat < 16 := (c.lineBit.bit l).isLt
  rw [lineFlag, ← BitVec.twoPow_eq, BitVec.getLsbD_twoPow, decide_eq_true hlt, Bool.true_and]

/-- The flag of a line asserts that line only: positions are distinct. -/
theorem asserts_lineFlag (c : Cfg) (l k : Line) : asserts c k (lineFlag c l) = decide (k = l) := by
  rw [asserts, getLsbD_lineFlag, decide_eq_decide, BitVec.toNat_inj]
  exact ⟨fun h => (c.lineBit.bit_injective h).symm, fun h => h ▸ rfl⟩

/-- K1: the empty cell has the zero word. -/
@[simp] theorem word_none (c : Cfg) : c.word .none = 0#16 := rfl

@[simp] theorem asserts_zero (c : Cfg) (l : Line) : asserts c l 0#16 = false :=
  BitVec.getLsbD_zero

/-- An OR of flags asserts the lines it is made of. -/
theorem asserts_orOfFlags (c : Cfg) (k : Line) (ls : List Line) : asserts c k (orOfFlags c ls) = decide (k ∈ ls) := by
  induction ls with
  | nil => simp [orOfFlags]
  | cons l ls ih =>
    have hor : asserts c k (orOfFlags c (l :: ls)) = (asserts c k (lineFlag c l) || asserts c k (orOfFlags c ls)) :=
      BitVec.getLsbD_or
    rw [hor, asserts_lineFlag, ih, ← Bool.decide_or]
    simp only [List.mem_cons]

/-- A word is determined by the lines it asserts: every bit is some line's. -/
theorem word_ext {c : Cfg} {v w : Word} (h : ∀ l, asserts c l v = asserts c l w) : v = w := by
  refine BitVec.eq_of_getLsbD_eq fun i hi => ?_
  obtain ⟨l, hl⟩ := c.lineBit.exists_bit (BitVec.ofNat 4 i)
  have hpos : (c.lineBit.bit l).toNat = i := by rw [hl, BitVec.toNat_ofNat, Nat.mod_eq_of_lt hi]
  have hl' := h l
  rwa [asserts, asserts, hpos] at hl'

theorem mem_linesOf (c : Cfg) (u : Uop) (l : Line) : l ∈ linesOf c u ↔ asserts c l (c.word u) = true := by
  simp [linesOf, Line.mem_all]

/-! ## What the constraints of R92 say of the words -/

theorem has_mi_of_k4 {c : Cfg} (h : c.k4 = true) : c.has .fetch0 .mi = true ∧ c.has .marIr .mi = true := by
  simpa [Cfg.k4] using h

theorem has_eo_fi_of_k6 {c : Cfg} (h : c.k6 = true) {u : Uop} (hu : u = .aluAdd ∨ u = .aluSub) :
    c.has u .eo = true ∧ c.has u .fi = true := by
  simp only [Cfg.k6, Bool.and_eq_true] at h
  obtain ⟨⟨⟨haddEo, haddFi⟩, hsubEo⟩, hsubFi⟩ := h
  rcases hu with rfl | rfl
  · exact ⟨haddEo, haddFi⟩
  · exact ⟨hsubEo, hsubFi⟩

theorem has_su_of_k7 {c : Cfg} (h : c.k7 = true) {u : Uop} (hu : u = .aluSub ∨ u = .cmp) : c.has u .su = true := by
  simp only [Cfg.k7, Bool.and_eq_true] at h
  obtain ⟨⟨hsub, hcmp⟩, -⟩ := h
  rcases hu with rfl | rfl
  · exact hsub
  · exact hcmp

theorem not_has_su_of_k7 {c : Cfg} (h : c.k7 = true) : c.has .aluAdd .su = false := by
  simp only [Cfg.k7, Bool.and_eq_true, Bool.not_eq_true'] at h
  exact h.2

theorem k9_iff (c : Cfg) :
    c.k9 = true ↔ ∀ u, (c.has u .j = true → u = .jump) ∧ (c.has u .hlt = true → u = .halt) := by
  simp [Cfg.k9, Uop.mem_all, imp_iff_or_not]

theorem k10_iff (c : Cfg) : c.k10 = true ↔ ∀ u, c.word u = 0#16 → u = .none := by
  simp [Cfg.k10, Uop.mem_all, imp_iff_or_not]

theorem k11_iff (c : Cfg) : c.k11 = true ↔ ∀ u, c.has u .fi = true → u = .aluAdd ∨ u = .aluSub ∨ u = .cmp := by
  simp [Cfg.k11, Uop.mem_all, imp_iff_or_not, or_assoc]

theorem has_hlt_iff {c : Cfg} (h2 : c.k2 = true) (h9 : c.k9 = true) (u : Uop) : c.has u .hlt = true ↔ u = .halt :=
  ⟨((k9_iff c).mp h9 u).2, fun h => h ▸ h2⟩

theorem has_j_iff {c : Cfg} (h3 : c.k3 = true) (h9 : c.k9 = true) (u : Uop) : c.has u .j = true ↔ u = .jump :=
  ⟨((k9_iff c).mp h9 u).1, fun h => h ▸ h3⟩

theorem has_fi_iff {c : Cfg} (h6 : c.k6 = true) (h8 : c.k8 = true) (h11 : c.k11 = true) (u : Uop) :
    c.has u .fi = true ↔ u = .aluAdd ∨ u = .aluSub ∨ u = .cmp := by
  simp only [Cfg.k6, Cfg.k8, Bool.and_eq_true] at h6 h8
  obtain ⟨⟨⟨-, hadd⟩, -⟩, hsub⟩ := h6
  obtain ⟨hcmp, -⟩ := h8
  refine ⟨(k11_iff c).mp h11 u, ?_⟩
  rintro (rfl | rfl | rfl)
  · exact hadd
  · exact hsub
  · exact hcmp

/-- Under K10 only the empty cell has the zero word (K1). -/
theorem word_eq_zero_iff {c : Cfg} (h10 : c.k10 = true) (u : Uop) : c.word u = 0#16 ↔ u = .none :=
  ⟨(k10_iff c).mp h10 u, fun h => h ▸ word_none c⟩

/-! ## The family sequences as lists -/

/-- The micro-operations of a mnemonic from step 2 up to its last one: what the flags leave of its row (R115, R116). -/
def ownUops (j : JncBase2) (carry zero : Bool) : Mnemonic → List Uop
  | .lda => [.marIr, .aRam]
  | .add => [.marIr, .bRam, .aluAdd]
  | .sub => [.marIr, .bRam, .aluSub]
  | .sta => [.marIr, .ramA]
  | .mvi => [.aIr]
  | .inc => [.bIr, .aluAdd]
  | .dec => [.bIr, .aluSub]
  | .jc => if carry then [.jump] else []
  | .jnc => if j = .uopJump then [.jump] else []
  | .jz => if zero then [.jump] else []
  | .jnz => if zero then [] else [.jump]
  | .jmp => [.jump]
  | .out => [.outA]
  | .hlt => [.halt]
  | .nop => []
  | .cmp => [.marIr, .bRam, .cmp]

/-- A family sequence is the shared fetch, the mnemonic's own micro-operations, and padding (R112 to R114). -/
theorem microOp_eq_uopAt (j : JncBase2) (m : Mnemonic) (step : BitVec 3) (carry zero : Bool) :
    microOp j m step carry zero = uopAt (.fetch0 :: .fetch1 :: ownUops j carry zero m) step := by
  revert step carry zero
  cases j <;> cases m <;> decide

theorem length_ownUops_le (j : JncBase2) (carry zero : Bool) (m : Mnemonic) : (ownUops j carry zero m).length ≤ 3 := by
  revert carry zero
  cases j <;> cases m <;> decide

theorem none_notMem_ownUops (j : JncBase2) (carry zero : Bool) (m : Mnemonic) : .none ∉ ownUops j carry zero m := by
  revert carry zero
  cases j <;> cases m <;> decide

/-- A sequence without empty cells is empty from its end on. -/
theorem uopAt_eq_none_iff {us : List Uop} (h : .none ∉ us) (step : BitVec 3) :
    uopAt us step = .none ↔ us.length ≤ step.toNat := by
  by_cases hlt : step.toNat < us.length
  · rw [uopAt, List.getD_eq_getElem us _ hlt]
    exact iff_of_false (fun he => h (he ▸ List.getElem_mem hlt)) (Nat.not_le.mpr hlt)
  · exact iff_of_true (List.getD_eq_default us _ (Nat.le_of_not_lt hlt)) (Nat.le_of_not_lt hlt)

/-- The empty steps of a mnemonic are those from the end of its sequence on (R115). -/
theorem microOp_eq_none_iff (j : JncBase2) (m : Mnemonic) (step : BitVec 3) (carry zero : Bool) :
    microOp j m step carry zero = .none ↔ (ownUops j carry zero m).length + 2 ≤ step.toNat := by
  rw [microOp_eq_uopAt]
  exact uopAt_eq_none_iff (by simp [none_notMem_ownUops]) step

/-- The filler steps are empty (R123). -/
theorem microOp_of_filler (j : JncBase2) (m : Mnemonic) {step : BitVec 3} (carry zero : Bool) (h : 6 ≤ step.toNat) :
    microOp j m step carry zero = .none := by
  have hlen := length_ownUops_le j carry zero m
  exact (microOp_eq_none_iff j m step carry zero).mpr (by omega)

/-! ## The engine emits the family sequences -/

theorem final_of_ne_two (c : Cfg) (opcode : BitVec 4) {step : BitVec 3} (carry zero : Bool) (h : step ≠ 2#3) :
    final c opcode step carry zero = lookup c opcode step :=
  if_neg h

/-- The family sequences agree with the table away from step 2, the only step at which a flag enters (R116). -/
theorem microOp_of_ne_two (j : JncBase2) (m : Mnemonic) (step : BitVec 3) (carry zero : Bool) (h : step ≠ 2#3) :
    microOp j m step carry zero = table j m step := by
  revert step carry zero
  cases j <;> cases m <;> decide

/-- The word after any override is that of the family's micro-operation (R118). -/
theorem final_num (c : Cfg) (m : Mnemonic) (step : BitVec 3) (carry zero : Bool) :
    final c (c.opc.num m) step carry zero = c.word (microOp c.jncBase2 m step carry zero) := by
  by_cases h : step = 2#3
  · subst h
    simp only [final, override, lookup_num, Opc.num_eq_iff]
    cases m <;> cases carry <;> cases zero <;> rfl
  · rw [final_of_ne_two c _ carry zero h, lookup_num, microOp_of_ne_two _ m step carry zero h]

/-- At the address of fields whose step is 6 or 7 the image holds the zero fill (R48). -/
theorem romByte_physical_encodeFields_of_filler (c : Cfg) {f : Fields} (h : 6 ≤ f.step.toNat) :
    romByte c (Addr10.physical (encodeFields f)) = 0#8 := by
  refine romByte_of_filler c ((Addr13.logical_iff_lt _).mp (Addr13.logical_physical _)) ?_
  rwa [← wires_step_toNat, wires_physical_encodeFields]

/-- At a step with content the two bytes are the halves of the final word (R124). -/
theorem controlWord_of_content (c : Cfg) (opcode : BitVec 4) {step : BitVec 3} (carry zero : Bool)
    (h : step.toNat ≤ 5) : controlWord c opcode step carry zero = final c opcode step carry zero := by
  rw [controlWord, strapped, strapped, romByte_physical_encodeFields c h, romByte_physical_encodeFields c h]
  exact hiByte_append_loByte _

theorem controlWord_of_filler (c : Cfg) (opcode : BitVec 4) {step : BitVec 3} (carry zero : Bool)
    (h : 6 ≤ step.toNat) : controlWord c opcode step carry zero = 0#16 := by
  rw [controlWord, strapped, strapped, romByte_physical_encodeFields_of_filler c h,
    romByte_physical_encodeFields_of_filler c h]
  rfl

/-- The composite control word, through table, override, byte selection and image, is the family's (R124). -/
theorem controlWord_num (c : Cfg) (m : Mnemonic) (step : BitVec 3) (carry zero : Bool) :
    controlWord c (c.opc.num m) step carry zero = c.word (microOp c.jncBase2 m step carry zero) := by
  by_cases h : step.toNat ≤ 5
  · rw [controlWord_of_content c _ carry zero h, final_num]
  · have hfill : 6 ≤ step.toNat := Nat.lt_of_not_le h
    rw [controlWord_of_filler c _ carry zero hfill, microOp_of_filler _ m carry zero hfill,
      word_none]

/-- Every opcode is some mnemonic's, so every control word is the word of a micro-operation (R89). -/
theorem exists_uop_controlWord (c : Cfg) (opcode : BitVec 4) (step : BitVec 3) (carry zero : Bool) :
    ∃ u, controlWord c opcode step carry zero = c.word u := by
  obtain ⟨m, rfl⟩ := c.opc.exists_num opcode
  exact ⟨_, controlWord_num c m step carry zero⟩

/-! ## What an instruction and a step sample -/

/-- The micro-operation an instruction reads. -/
def uopOf (j : JncBase2) (i : Instr) : Uop :=
  microOp j i.mnemonic i.operands.step i.operands.carry i.operands.zero

@[simp] theorem wires_encode (o : Opc) (i : Instr) : wires (encode o i) = i.fields o :=
  wires_physical_encodeFields _

/-- The sampled byte is the selected half of the sampled word, device by device (R94, R120). -/
theorem sampleAt_encode_byte (s : State) (o : Opc) (i : Instr) :
    (s.sampleAt (encode o i)).byte = selectHalf i.operands.half (s.sampleAt (encode o i)).word := by
  have hbyte : (s.sampleAt (encode o i)).byte = Memory.read s.cfg (s.image i.operands.half) (encode o i) := by
    rw [State.sampleAt, State.deviceByte, wires_encode, Instr.fields]
  have hword : (s.sampleAt (encode o i)).word =
      s.compositeWord (o.num i.mnemonic) i.operands.step i.operands.carry i.operands.zero := by
    rw [State.sampleAt, wires_encode, Instr.fields]
  rw [hbyte, hword, State.compositeWord, encode, Instr.fields]
  cases i.operands.half with
  | true => exact (hiByte_append _ _).symm
  | false => exact (loByte_append _ _).symm

/-- With the specified images an instruction samples the word of its micro-operation. -/
theorem exec_word_of_imageOk {i : Instr} {s t : State} (hok : ImageOk s) (h : exec i s = .next t) :
    ∃ x, t.trace = s.trace ++ [x] ∧ x.word = s.cfg.word (uopOf s.cfg.jncBase2 i) := by
  refine ⟨s.sampleAt (encode s.cfg.opc i), congrArg State.trace (exec_next h), ?_⟩
  rw [State.sampleAt_of_imageOk hok, specSample, wires_encode, Instr.fields]
  exact controlWord_num _ _ _ _ _

/-- The premise `ImageOk` speaks of the configuration and the images only, not of the driver. -/
theorem ImageOk.congr {s t : State} (h : ImageOk s) (hc : t.cfg = s.cfg) (hh : t.imgHi = s.imgHi)
    (hl : t.imgLo = s.imgLo) : ImageOk t := by
  rw [ImageOk, hc, hh, hl]
  exact h

/-- A trace stays lawful when a lawful word is sampled. -/
theorem TraceOfUops.observe {s : State} (h : TraceOfUops s) {x : Sample} (hx : ∃ u, x.word = s.cfg.word u) :
    TraceOfUops (s.observe x) := by
  intro y hy
  rcases List.mem_append.mp hy with hy | hy
  · exact h y hy
  · exact List.mem_singleton.mp hy ▸ hx

/-- What the driver presents next does not enter what it has sampled. -/
theorem TraceOfUops.advance {s : State} (h : TraceOfUops s) : TraceOfUops s.advance := by
  rw [TraceOfUops, State.advance_trace, State.advance_cfg]
  exact h

/-! ## Where each micro-operation stands in the family sequences

Each is read off the sixteen sequences, step by step. -/

theorem microOp_zero (j : JncBase2) (m : Mnemonic) (carry zero : Bool) : microOp j m 0#3 carry zero = .fetch0 :=
  microOp_eq_uopAt j m 0#3 carry zero

theorem microOp_one (j : JncBase2) (m : Mnemonic) (carry zero : Bool) : microOp j m 1#3 carry zero = .fetch1 :=
  microOp_eq_uopAt j m 1#3 carry zero

section
variable (j : JncBase2) (m : Mnemonic) (step : BitVec 3) (carry zero : Bool)

theorem microOp_eq_marIr_iff : microOp j m step carry zero = .marIr ↔
    step = 2#3 ∧ m ∈ [Mnemonic.lda, .add, .sub, .sta, .cmp] := by
  revert step carry zero
  cases j <;> cases m <;> decide

theorem microOp_eq_aluAdd_iff : microOp j m step carry zero = .aluAdd ↔
    (step = 4#3 ∧ m = .add) ∨ (step = 3#3 ∧ m = .inc) := by
  revert step carry zero
  cases j <;> cases m <;> decide

theorem microOp_eq_aluSub_iff : microOp j m step carry zero = .aluSub ↔
    (step = 4#3 ∧ m = .sub) ∨ (step = 3#3 ∧ m = .dec) := by
  revert step carry zero
  cases j <;> cases m <;> decide

theorem microOp_eq_cmp_iff : microOp j m step carry zero = .cmp ↔ step = 4#3 ∧ m = .cmp := by
  revert step carry zero
  cases j <;> cases m <;> decide

theorem microOp_eq_halt_iff : microOp j m step carry zero = .halt ↔ m = .hlt ∧ step = 2#3 := by
  revert step carry zero
  cases j <;> cases m <;> decide

theorem microOp_eq_jump_iff : microOp j m step carry zero = .jump ↔ step = 2#3 ∧
    (m = .jmp ∨ (m = .jc ∧ carry = true) ∨ (m = .jz ∧ zero = true) ∨ (m = .jnz ∧ zero = false) ∨
      (m = .jnc ∧ j = .uopJump)) := by
  revert step carry zero
  cases j <;> cases m <;> decide

end

end Sys2Proof.Machine

namespace Sys2Proof.Proofs.Encoding

open Sys2Proof Sys2Proof.Machine

/-! ## The statements -/

/-- Settles O3: by `decode_encode`, the round-trip law of the fields (R75) and of the numbering. -/
theorem decodeEncodeInstruction : Obligations.DecodeEncodeInstruction :=
  decode_encode

/-- Settles O1: the two directions of R75. -/
theorem addressRoundTrip : Obligations.AddressRoundTrip :=
  ⟨encodeFields_decodeFields, decodeFields_encodeFields⟩

/-- Settles O4: what decodes is an encoding. -/
theorem encodeDecodeInstruction : Obligations.EncodeDecodeInstruction :=
  fun _ _ _ => encode_of_decode

/-- Settles O5: the masked bits are the opcode field, and `Opc.mnemonicOf` inverts the numbering. -/
theorem everyAddressBelongsToOneMnemonic : Obligations.EveryAddressBelongsToOneMnemonic := by
  intro o a
  have hiff (m : Mnemonic) :
      a &&& 0x078#10 = (o.num m).setWidth 10 <<< 3 ↔ o.mnemonicOf (decodeFields a).opcode = m := by
    rw [and_opcodeMask_eq_iff, Opc.mnemonicOf_eq_iff]
  exact ⟨⟨_, (hiff _).mpr rfl, fun m hm => ((hiff m).mp hm).symm⟩, hiff⟩

/-- Settles O6: the decoder branches on the address being logical, which is being below 1024. -/
theorem decodeAnswersExactlyBelow1024 : Obligations.DecodeAnswersExactlyBelow1024 := by
  refine fun o a => ⟨⟨fun ⟨i, hi⟩ => ?_, decode_of_lt o⟩, decode_of_ge o⟩
  by_contra hge
  rw [decode_of_ge o (Nat.le_of_not_lt hge)] at hi
  cases hi

/-- Settles O2: each field is a shift and a mask, and `Encode` the OR of the shifted fields. -/
theorem decodeIsTheMasksEncodeTheShifts : Obligations.DecodeIsTheMasksEncodeTheShifts := by
  refine ⟨fun a => ⟨?_, setWidth_extractLsb'_eq_and a 3 (by decide), setWidth_ofBool_getLsbD_eq_and a 7,
    setWidth_ofBool_getLsbD_eq_and a 8, setWidth_ofBool_getLsbD_eq_and a 9⟩, encodeFields_eq_or⟩
  exact (setWidth_extractLsb'_eq_and a 0 (by decide)).trans (congrArg (· &&& 7#10) a.ushiftRight_zero)

/-- Settles O7: by running the decoder on the six words. -/
theorem tableWordsDecodeToTheirRows : Obligations.TableWordsDecodeToTheirRows := by
  unfold Obligations.TableWordsDecodeToTheirRows
  decide

/-- Settles O24: the OR of the flags of a word's lines asserts the lines the word asserts. -/
theorem everyWordIsTheOrOfItsLineFlags : Obligations.EveryWordIsTheOrOfItsLineFlags := by
  refine fun c => ⟨fun u => word_ext (c := c) fun l => ?_, ?_, asserts_lineFlag c⟩
  · rw [asserts_orOfFlags, Bool.eq_iff_iff, decide_eq_true_eq, mem_linesOf]
  · simp [linesOf]

/-- Settles O49: a step leaves the images alone and notes one word, which is a control word of the specified block and
so a micro-operation's. -/
theorem stepKeepsTheTraceLawful : Obligations.StepKeepsTheTraceLawful := by
  intro s t hok htrace hstep
  obtain ⟨hc, hh, hl⟩ := step_frame hstep
  refine ⟨hok.congr hc hh hl, ?_⟩
  rw [step_eq_observe, State.sampleAt_of_imageOk hok] at hstep
  cases hstep
  refine htrace.advance.observe ?_
  rw [State.advance_cfg]
  exact exists_uop_controlWord _ _ _ _ _

/-- Settles O43: the sample at an instruction's address, whatever the images hold. -/
theorem sampledByteIsTheSelectedHalf : Obligations.SampledByteIsTheSelectedHalf :=
  fun _ s _ h => ⟨_, congrArg State.trace (exec_next h), sampleAt_encode_byte s s.cfg.opc _⟩

/-- Settles O45: the step samples the specified block, whose byte above the logical space is the zero fill. -/
theorem stepAboveTheLogicalSpaceReadsZero : Obligations.StepAboveTheLogicalSpaceReadsZero := by
  intro s hok hge
  rw [step_eq_observe, State.sampleAt_of_imageOk hok, specSample, romByte_of_ge _ hge]
  rfl

/-- Settles O56: under K2 and K9 the halt line is that of UOP_HALT, which stands in HLT's sequence only. -/
theorem onlyHltAtStepTwoAssertsHalt : Obligations.OnlyHltAtStepTwoAssertsHalt := by
  intro i s t hok h2 h9 hexec
  obtain ⟨x, htrace, hword⟩ := exec_word_of_imageOk hok hexec
  refine ⟨x, htrace, ?_⟩
  rw [hword]
  exact (has_hlt_iff h2 h9 _).trans (microOp_eq_halt_iff ..)

/-- Settles O57: under K3 and K9 the jump line is that of UOP_JUMP, which only taken jumps read. -/
theorem onlyTakenJumpsAssertJ : Obligations.OnlyTakenJumpsAssertJ := by
  intro i s t hok h3 h9 hexec
  obtain ⟨x, htrace, hword⟩ := exec_word_of_imageOk hok hexec
  refine ⟨x, htrace, ?_⟩
  rw [hword]
  exact (has_j_iff h3 h9 _).trans (microOp_eq_jump_iff ..)

/-- Settles O58: under K6, K8 and K11 the line FI is that of UOP_ALU_ADD, UOP_ALU_SUB and UOP_CMP. -/
theorem flagLoadsAreTheFiveAluSteps : Obligations.FlagLoadsAreTheFiveAluSteps := by
  intro i s t hok h6 h8 h11 hexec
  obtain ⟨x, htrace, hword⟩ := exec_word_of_imageOk hok hexec
  refine ⟨x, htrace, ?_⟩
  rw [hword]
  refine (has_fi_iff h6 h8 h11 _).trans ?_
  rw [uopOf, microOp_eq_aluAdd_iff, microOp_eq_aluSub_iff, microOp_eq_cmp_iff]
  tauto

/-- Settles O60: each clause names a micro-operation of the sequence and the constraint that gives its word the line;
the empty steps are those beyond the sequence's length. -/
theorem stepsAssertTheirLines : Obligations.StepsAssertTheirLines := by
  intro i s t hok hexec
  obtain ⟨x, htrace, hword⟩ := exec_word_of_imageOk hok hexec
  refine ⟨x, htrace, ?_⟩
  rw [hword, uopOf]
  refine ⟨fun h4 hat => ?_, fun h5 hat => ?_, fun h6 hat => ?_, fun h7 => ⟨fun hat => ?_, fun hat => ?_⟩, fun h10 => ?_⟩
  · obtain ⟨hfetch0, hmarIr⟩ := has_mi_of_k4 h4
    rcases hat with hstep | hat
    · rw [hstep, microOp_zero]
      exact hfetch0
    · rw [(microOp_eq_marIr_iff ..).mpr hat]
      exact hmarIr
  · rw [hat, microOp_one]
    exact h5
  · refine has_eo_fi_of_k6 h6 ?_
    rw [microOp_eq_aluAdd_iff, microOp_eq_aluSub_iff]
    simp only [List.mem_cons, List.not_mem_nil, or_false] at hat
    tauto
  · refine has_su_of_k7 h7 ?_
    rw [microOp_eq_aluSub_iff, microOp_eq_cmp_iff]
    simp only [List.mem_cons, List.not_mem_nil, or_false] at hat
    tauto
  · rw [(microOp_eq_aluAdd_iff ..).mpr hat]
    exact not_has_su_of_k7 h7
  · rw [word_eq_zero_iff h10, microOp_eq_none_iff]
    refine iff_of_eq (congrArg (· ≤ _) ?_)
    cases i with
    | jc _ | jnc _ | jz _ | jnz _ => exact apply_ite (fun us : List Uop => us.length + 2) _ _ _
    | _ => rfl

end Sys2Proof.Proofs.Encoding
end

section
/-! PROOFS. The family 40_lookup_engine.md: the table, the override, `Final`, `Resolve` and `RomByte`, the composite
word as the family's, and the census of the image. -/

namespace Sys2Proof.Machine

/-! ## The resolved byte and the override -/

/-- The resolved byte is the selected half of the word of the family's micro-operation (R118, R120). -/
theorem resolve_num (c : Cfg) (m : Mnemonic) (step : BitVec 3) (half carry zero : Bool) :
    resolve c ⟨step, c.opc.num m, half, carry, zero⟩ =
      selectHalf half (c.word (microOp c.jncBase2 m step carry zero)) := by
  rw [resolve, final_num]

/-- No branch of the override takes any opcode but the three flag-conditional ones (R116). -/
theorem override_of_ne {c : Cfg} {opcode : BitVec 4} (hz : opcode ≠ c.opc.num .jz) (hnz : opcode ≠ c.opc.num .jnz)
    (hc : opcode ≠ c.opc.num .jc) (step : BitVec 3) (carry zero : Bool) (base : Word) :
    override c opcode step carry zero base = base := by
  simp [override, hz, hnz, hc]

/-- JC passes the zero branch of the override unchanged, whatever the zero flag (R116, R117). -/
theorem override_jc (c : Cfg) (carry zero : Bool) (base : Word) :
    override c (c.opc.num .jc) 2#3 carry zero base = if carry then lookup c (c.opc.num .jmp) 2#3 else base := by
  simp [override, Opc.num_eq_iff]

/-- Any opcode but JC passes the carry branch of the override unchanged, whatever the carry flag (R116, R117). -/
theorem override_of_ne_jc {c : Cfg} {opcode : BitVec 4} (h : opcode ≠ c.opc.num .jc) (carry zero : Bool)
    (base : Word) :
    override c opcode 2#3 carry zero base =
      if zero = true ∧ opcode = c.opc.num .jz then lookup c (c.opc.num .jmp) 2#3
      else if zero = true ∧ opcode = c.opc.num .jnz then lookup c (c.opc.num .nop) 2#3
      else base := by
  cases zero <;> simp [override, h]

/-! ## The final word of the conditional jumps at step 2 -/

theorem final_jz (c : Cfg) (carry zero : Bool) :
    final c (c.opc.num .jz) 2#3 carry zero = if zero then c.word .jump else 0#16 := by
  rw [final_num]
  cases zero <;> rfl

theorem final_jnz (c : Cfg) (carry zero : Bool) :
    final c (c.opc.num .jnz) 2#3 carry zero = if zero then 0#16 else c.word .jump := by
  rw [final_num]
  cases zero <;> rfl

theorem final_jc (c : Cfg) (carry zero : Bool) :
    final c (c.opc.num .jc) 2#3 carry zero = if carry then c.word .jump else 0#16 := by
  rw [final_num]
  cases carry <;> rfl

/-! ## Where the flags do not enter -/

/-- The zero flag enters the sequences of JZ and JNZ only, at step 2 only (R119). -/
theorem microOp_congr_zero (j : JncBase2) {m : Mnemonic} {step : BitVec 3}
    (h : ¬(step = 2#3 ∧ (m = .jz ∨ m = .jnz))) (carry zero zero' : Bool) :
    microOp j m step carry zero = microOp j m step carry zero' := by
  by_cases hs : step = 2#3
  · cases m with
    | jz | jnz => simp [hs] at h
    | _ => rfl
  · rw [microOp_of_ne_two j m step carry zero hs, microOp_of_ne_two j m step carry zero' hs]

/-- The carry flag enters the sequence of JC only, at step 2 only (R119). -/
theorem microOp_congr_carry (j : JncBase2) {m : Mnemonic} {step : BitVec 3} (h : ¬(step = 2#3 ∧ m = .jc))
    (carry carry' zero : Bool) : microOp j m step carry zero = microOp j m step carry' zero := by
  by_cases hs : step = 2#3
  · cases m with
    | jc => simp [hs] at h
    | _ => rfl
  · rw [microOp_of_ne_two j m step carry zero hs, microOp_of_ne_two j m step carry' zero hs]

/-! ## Addresses -/

/-- A physical address is in the logical space exactly when the three unnamed bits are clear (R76). -/
theorem extractLsb'_high_eq_zero_iff (a : Addr13) : a.extractLsb' 10 3 = 0#3 ↔ a.toNat < 1024 :=
  decide_eq_true_iff.symm.trans (Addr13.logical_iff_lt a)

/-- The address of step 0 with both flags clear, as shifts (R74). -/
theorem physical_encodeFields_stepZero (v : BitVec 4) (half : Bool) :
    Addr10.physical (encodeFields ⟨0#3, v, half, false, false⟩) =
      (if half then 0x080#13 else 0#13) ||| (v.setWidth 13 <<< 3) := by
  revert v half
  decide

/-! ## The census (R130) -/

/-- The eight values of the step input. -/
def stepInputs : List (BitVec 3) := (List.range 8).map (BitVec.ofNat 3)

/-- The four values of the carry and zero inputs. -/
def flagInputs : List (Bool × Bool) := [(false, false), (false, true), (true, false), (true, true)]

theorem censusTuples_eq_product : censusTuples = Mnemonic.all ×ˢ stepInputs ×ˢ flagInputs := by
  have hflags : flagInputs = [false, true].flatMap fun cf => [false, true].map fun zf => (cf, zf) := rfl
  simp only [SProd.sprod, List.product, hflags, stepInputs, censusTuples, List.flatMap_map, List.map_flatMap,
    List.map_map, Function.comp_def]

/-- A product counted row by row, and each row by what is counted at the second component. -/
theorem countP_product {α β : Type} (xs : List α) (ys : List β) (p : α × β → Bool) :
    (xs ×ˢ ys).countP p = (xs.map fun x => ys.countP fun y => p (x, y)).sum := by
  simp only [SProd.sprod, List.product, List.countP_flatMap, List.countP_map, Function.comp_def]

theorem countP_eq_sum_ite {β : Type} (p : β → Bool) (ys : List β) :
    ys.countP p = (ys.map fun y => if p y then 1 else 0).sum := by
  induction ys with
  | nil => rfl
  | cons y ys ih => rw [List.countP_cons, List.map_cons, List.sum_cons, ih, Nat.add_comm]

/-- A product counted column by column. -/
theorem countP_product_columns {α β : Type} (xs : List α) (ys : List β) (p : α × β → Bool) :
    (xs ×ˢ ys).countP p = (ys.map fun y => xs.countP fun x => p (x, y)).sum := by
  induction xs with
  | nil => simp
  | cons x xs ih =>
    simp only [List.product_cons, List.countP_append, List.countP_map, Function.comp_def, ih, List.countP_cons,
      List.sum_map_add, ← countP_eq_sum_ite]
    exact Nat.add_comm _ _

/-- The micro-operations of a mnemonic at its eight steps: the shared fetch, its own, and empty ones after them. -/
def allSteps (j : JncBase2) (carry zero : Bool) (m : Mnemonic) : List Uop :=
  .fetch0 :: .fetch1 :: ownUops j carry zero m ++ List.replicate (6 - (ownUops j carry zero m).length) Uop.none

theorem map_microOp_stepInputs (j : JncBase2) (m : Mnemonic) (carry zero : Bool) :
    (stepInputs.map fun k => microOp j m k carry zero) = allSteps j carry zero m := by
  revert carry zero
  cases j <;> cases m <;> decide

/-- A count over the tuples by mnemonic and micro-operation: the steps of each mnemonic under each pair of flags. -/
theorem countP_censusTuples (j : JncBase2) (q : Mnemonic → Uop → Bool) :
    censusTuples.countP (fun (m, k, cf, zf) => q m (microOp j m k cf zf)) =
      (Mnemonic.all.map fun m => (flagInputs.map fun f => (allSteps j f.1 f.2 m).countP (q m)).sum).sum := by
  simp only [censusTuples_eq_product, countP_product Mnemonic.all, countP_product_columns stepInputs,
    ← map_microOp_stepInputs, List.countP_map, Function.comp_def]

theorem map_census (j : JncBase2) : Uop.all.map (census j) = Uop.all.map fun u =>
    (Mnemonic.all.map fun m => (flagInputs.map fun f => (allSteps j f.1 f.2 m).countP (decide <| · = u)).sum).sum :=
  List.map_congr_left fun u _ => countP_censusTuples j fun _ v => decide (v = u)

theorem length_censusTuples : censusTuples.length = 512 := by
  rw [censusTuples_eq_product, List.length_product, List.length_product]
  decide

theorem nodup_censusTuples : censusTuples.Nodup := by
  rw [censusTuples_eq_product]
  exact .product (by decide) (.product (by decide) (by decide))

/-- Where the words differ from each other, the tuples that read a word are those that have its micro-operation. -/
theorem countP_controlWord {c : Cfg} (hinj : ∀ u v : Uop, c.word u = c.word v → u = v) (u : Uop) :
    (censusTuples.countP fun (m, k, cf, zf) => decide (controlWord c (c.opc.num m) k cf zf = c.word u)) =
      census c.jncBase2 u := by
  refine List.countP_congr fun x _ => ?_
  simp only [decide_eq_true_eq, controlWord_num]
  exact ⟨hinj _ _, congrArg c.word⟩

end Sys2Proof.Machine

namespace Sys2Proof.Proofs.LookupEngine

open Sys2Proof Sys2Proof.Machine

/-! ## The statements -/

/-- Settles O20: by `controlWord_num`, which goes through image, byte selection, override and table. -/
theorem engineEmitsTheFamilySequences : Obligations.EngineEmitsTheFamilySequences :=
  controlWord_num

/-- Settles O17: region by region of the step (R122). -/
theorem controlWordIsTheFinalWord : Obligations.ControlWordIsTheFinalWord :=
  fun c opcode _ carry zero =>
    ⟨rfl, controlWord_of_content c opcode carry zero, controlWord_of_filler c opcode carry zero⟩

/-- Settles O10: every opcode is some mnemonic's, and every sequence begins with the shared fetch. -/
theorem fetchLaw : Obligations.FetchLaw := by
  intro c opcode half carry zero
  obtain ⟨m, rfl⟩ := c.opc.exists_num opcode
  simp only [final_num, resolve_num, microOp_zero, microOp_one]
  exact ⟨trivial, trivial, rfl, rfl⟩

/-- Settles O11: away from step 2 by `final_of_ne_two`; at step 2 the jumps one by one, and no branch of the override
takes any other opcode. -/
theorem finalWordByCases : Obligations.FinalWordByCases :=
  fun c carry zero =>
    ⟨fun opcode _ => final_of_ne_two c opcode carry zero, final_jz c carry zero, final_jnz c carry zero,
      final_jc c carry zero, final_num c .jnc 2#3 carry zero,
      fun _ hz hnz hc => override_of_ne hz hnz hc 2#3 carry zero _⟩

/-- Settles O12: with the flag set the two sequences have the same micro-operation at step 2. -/
theorem jumpLaws : Obligations.JumpLaws := by
  intro c half flag
  simp only [resolve_num]
  exact ⟨rfl, rfl, rfl⟩

/-- Settles O13: a flag that does not enter the micro-operation does not enter the final word; where it enters, the two
words are CW(UOP_JUMP) and zero. -/
theorem flagsMatterOnlyForThreeJumps : Obligations.FlagsMatterOnlyForThreeJumps := by
  intro c opcode step
  obtain ⟨m, rfl⟩ := c.opc.exists_num opcode
  simp only [final_num c m, Opc.num_eq_iff]
  refine ⟨fun h carry zero zero' => congrArg c.word (microOp_congr_zero _ h carry zero zero'),
    fun h carry carry' zero => congrArg c.word (microOp_congr_carry _ h carry carry' zero), fun hjump flag => ?_⟩
  rw [final_jz, final_jz, final_jnz, final_jnz, final_jc, final_jc]
  exact ⟨hjump, hjump.symm, hjump⟩

/-- Settles O14: the carry branch is for JC only and the zero branch for JZ and JNZ only, whose numbers differ. -/
theorem overrideBranchesAreExclusive : Obligations.OverrideBranchesAreExclusive := by
  intro c base
  have hjz : c.opc.num .jc ≠ c.opc.num .jz := by simp [Opc.num_eq_iff]
  have hjnz : c.opc.num .jc ≠ c.opc.num .jnz := by simp [Opc.num_eq_iff]
  refine ⟨fun opcode carry zero => ?_, hjz, hjnz, ?_, ?_, override_jc c true true base⟩
  · by_cases h : opcode = c.opc.num .jc
    · subst h
      simp [override_jc, hjz, hjnz]
    · simp [override_of_ne_jc h, h]
  · rw [override_of_ne_jc hjz.symm, if_pos ⟨rfl, rfl⟩]
  · rw [override_of_ne_jc hjnz.symm, if_neg (by simp [Opc.num_eq_iff]), if_pos ⟨rfl, rfl⟩]

/-- Settles O19: both addresses encode step 0, where every opcode has the first fetch word (R125). -/
theorem stepZeroBytesAreTheFetchWord : Obligations.StepZeroBytesAreTheFetchWord := by
  intro c v
  have hcontent : (0#3).toNat ≤ 5 := by decide
  have hbyte (half : Bool) : romByte c ((if half then 0x080#13 else 0#13) ||| (v.setWidth 13 <<< 3)) =
      selectHalf half (c.word .fetch0) := by
    rw [← physical_encodeFields_stepZero, romByte_physical_encodeFields c hcontent]
    obtain ⟨m, rfl⟩ := c.opc.exists_num v
    rw [resolve_num, microOp_zero]
  exact ⟨(congrArg (romByte c) BitVec.zero_or.symm).trans (hbyte false), hbyte true⟩

/-- Settles O21: each count is a sum over the mnemonics and flags of counts in the eight steps, and the words read are
those of the micro-operations counted. -/
theorem censusOfTheImage : Obligations.CensusOfTheImage := by
  refine ⟨?_, ?_, ?_, length_censusTuples, nodup_censusTuples, fun c _ _ => controlWord_num c _ _ _ _,
    fun _ => countP_controlWord⟩
  · rw [map_census]
    decide
  · rw [map_census]
    decide
  · have hjumps (m : Mnemonic) := countP_censusTuples .uopNone fun n v => decide (n = m ∧ v = .jump)
    simp only [hjumps]
    decide

/-- Settles O8: by reading the sixteen rows, with JNC's cell left as the parameter. -/
theorem theTableIsTheSpecs : Obligations.TheTableIsTheSpecs :=
  fun _ => rfl

/-- Settles O9: by `lookup_num`, and OPC is onto the sixteen numbers. -/
theorem lookupReadsTheTable : Obligations.LookupReadsTheTable :=
  fun c => ⟨lookup_num c, c.opc.exists_num⟩

/-- Settles O15: the unnamed bits and the step field name the region of the address. -/
theorem romByteByRegion : Obligations.RomByteByRegion := by
  intro c a
  rw [Ne, extractLsb'_high_eq_zero_iff]
  have hstep : (decodeFields (a.extractLsb' 0 10)).step.toNat = a.toNat % 8 := wires_step_toNat a
  rw [hstep]
  exact ⟨fun h => romByte_of_ge c (Nat.le_of_not_lt h), romByte_of_filler c, romByte_of_content c⟩

end Sys2Proof.Proofs.LookupEngine
end

section
/-! PROOFS. The family 41_memory_reference.md: the words that LDA, ADD, SUB, STA and CMP present, and their flag loads.
The lemmas about what an instruction presents and about sequences without a flag load are for the other families too. -/

namespace Sys2Proof.Machine

/-! ## The sample an instruction presents -/

/-- With the specified images an instruction completes with the word of its micro-operation and the byte that its half
selects (R120, R124, R267). -/
theorem exec_of_imageOk (i : Instr) {s : State} (hok : ImageOk s) :
    exec i s = .next (s.observe (sampleOf i.operands.half (s.cfg.word (uopOf s.cfg.jncBase2 i)))) := by
  have hword : (s.sampleAt (encode s.cfg.opc i)).word = s.cfg.word (uopOf s.cfg.jncBase2 i) := by
    rw [State.sampleAt_of_imageOk hok, specSample, wires_encode, Instr.fields]
    exact controlWord_num _ _ _ _ _
  have hbyte := sampleAt_encode_byte s s.cfg.opc i
  rw [hword] at hbyte
  have hsample : s.sampleAt (encode s.cfg.opc i) =
      sampleOf i.operands.half (s.cfg.word (uopOf s.cfg.jncBase2 i)) := congrArg₂ Sample.mk hbyte hword
  rw [exec_eq_observe, hsample]

/-- The same with the sequence written out: the shared fetch, the instruction's own micro-operations, and padding
(R112 to R114). -/
theorem exec_presents_sequence (i : Instr) {s : State} (hok : ImageOk s) :
    exec i s = .next (s.observe (sampleOf i.operands.half (s.cfg.word (uopAt
      (.fetch0 :: .fetch1 :: ownUops s.cfg.jncBase2 i.operands.carry i.operands.zero i.mnemonic)
      i.operands.step)))) := by
  rw [exec_of_imageOk i hok, uopOf, microOp_eq_uopAt]

/-! ## Sequences and the flags register -/

/-- A step of a sequence reads one of its micro-operations, or is empty. -/
theorem uopAt_mem_or_eq_none (us : List Uop) (step : BitVec 3) : uopAt us step ∈ us ∨ uopAt us step = .none := by
  by_cases hlt : step.toNat < us.length
  · rw [uopAt, List.getD_eq_getElem us _ hlt]
    exact .inl (List.getElem_mem hlt)
  · exact .inr (List.getD_eq_default us _ (Nat.le_of_not_lt hlt))

/-- Under K11 a sequence without UOP_ALU_ADD, UOP_ALU_SUB and UOP_CMP commands no flag load at any step. -/
theorem loadsFlags_uopAt_eq_false {c : Cfg} (h11 : c.k11 = true) {us : List Uop}
    (hus : ∀ u ∈ us, ¬(u = .aluAdd ∨ u = .aluSub ∨ u = .cmp)) (step : BitVec 3) :
    loadsFlags c (c.word (uopAt us step)) = false := by
  rcases uopAt_mem_or_eq_none us step with hmem | hnone
  · exact Bool.eq_false_iff.mpr (mt ((k11_iff c).mp h11 _) (hus _ hmem))
  · rw [hnone]
    exact asserts_zero c .fi

/-- K8: CMP loads the flags and does not write A (R92). -/
theorem has_fi_not_ai_of_k8 {c : Cfg} (h : c.k8 = true) : c.has .cmp .fi = true ∧ c.has .cmp .ai = false := by
  simpa [Cfg.k8] using h

end Sys2Proof.Machine

namespace Sys2Proof.Proofs.MemoryReference

open Sys2Proof Sys2Proof.Machine

/-! ## The statements

Of each instruction, `exec_presents_sequence` gives the sample at every step; the lines of step 4 are those that the
constraints of R92 give to the micro-operation there. -/

/-- Settles O25: by `exec_presents_sequence`, and none of LDA's micro-operations is an ALU one. -/
theorem ldaPresentsItsWords : Obligations.LdaPresentsItsWords :=
  fun q _ hok =>
    ⟨exec_presents_sequence (.lda q) hok, fun step h11 => loadsFlags_uopAt_eq_false h11 (by decide) step⟩

/-- Settles O26: by `exec_presents_sequence`, and K6 gives UOP_ALU_ADD, at step 4, the line FI. -/
theorem addPresentsItsWords : Obligations.AddPresentsItsWords := by
  intro q s hok
  refine ⟨exec_presents_sequence (.add q) hok, fun h6 => ?_⟩
  obtain ⟨-, hfi⟩ := has_eo_fi_of_k6 (u := .aluAdd) h6 (.inl rfl)
  exact hfi

/-- Settles O27: by `exec_presents_sequence`, and K6 and K7 give UOP_ALU_SUB, at step 4, the lines FI and SU. -/
theorem subPresentsItsWords : Obligations.SubPresentsItsWords := by
  intro q s hok
  refine ⟨exec_presents_sequence (.sub q) hok, fun h6 => ?_, fun h7 => ?_⟩
  · obtain ⟨-, hfi⟩ := has_eo_fi_of_k6 (u := .aluSub) h6 (.inr rfl)
    exact hfi
  · exact has_su_of_k7 h7 (.inl rfl)

/-- Settles O28: by `exec_presents_sequence`, and none of STA's micro-operations is an ALU one. -/
theorem staPresentsItsWords : Obligations.StaPresentsItsWords :=
  fun q _ hok =>
    ⟨exec_presents_sequence (.sta q) hok, fun step h11 => loadsFlags_uopAt_eq_false h11 (by decide) step⟩

/-- Settles O29: by `exec_presents_sequence`, and K7 and K8 give UOP_CMP, at step 4, the lines SU and FI and deny it the
A-load line. -/
theorem cmpPresentsItsWords : Obligations.CmpPresentsItsWords :=
  fun q _ hok =>
    ⟨exec_presents_sequence (.cmp q) hok, fun h7 => has_su_of_k7 h7 (.inr rfl), has_fi_not_ai_of_k8⟩

end Sys2Proof.Proofs.MemoryReference
end

section
/-! PROOFS. The family 42_immediate.md: the words that MVI, INC and DEC present, and their flag loads. -/

namespace Sys2Proof.Proofs.Immediate

open Sys2Proof Sys2Proof.Machine

/-! ## The statements

As for the memory-reference family, `exec_presents_sequence` gives the sample at every step. An immediate instruction
needs no step for the memory address, so the ALU micro-operation of INC and DEC stands at step 3. -/

/-- Settles O30: by `exec_presents_sequence`, and none of MVI's micro-operations is an ALU one. -/
theorem mviPresentsItsWords : Obligations.MviPresentsItsWords :=
  fun q _ hok =>
    ⟨exec_presents_sequence (.mvi q) hok, fun step h11 => loadsFlags_uopAt_eq_false h11 (by decide) step⟩

/-- Settles O31: by `exec_presents_sequence`, and K6 gives UOP_ALU_ADD, at step 3, the line FI. -/
theorem incPresentsItsWords : Obligations.IncPresentsItsWords := by
  intro q s hok
  refine ⟨exec_presents_sequence (.inc q) hok, fun h6 => ?_⟩
  obtain ⟨-, hfi⟩ := has_eo_fi_of_k6 (u := .aluAdd) h6 (.inl rfl)
  exact hfi

/-- Settles O32: by `exec_presents_sequence`, and K6 and K7 give UOP_ALU_SUB, at step 3, the lines FI and SU. -/
theorem decPresentsItsWords : Obligations.DecPresentsItsWords := by
  intro q s hok
  refine ⟨exec_presents_sequence (.dec q) hok, fun h6 => ?_, fun h7 => ?_⟩
  · obtain ⟨-, hfi⟩ := has_eo_fi_of_k6 (u := .aluSub) h6 (.inr rfl)
    exact hfi
  · exact has_su_of_k7 h7 (.inl rfl)

end Sys2Proof.Proofs.Immediate
end

section
/-! PROOFS. The family 43_jumps.md: the words of JMP, JC, JNC, JZ and JNZ, and the words they present. -/

namespace Sys2Proof.Machine

/-! ## The one cell of a jump -/

/-- The jump family (R190 to R194). -/
def jumpFamily : List Mnemonic := [.jmp, .jc, .jnc, .jz, .jnz]

/-- After the shared fetch a jump has one cell of its own, at step 2, and the flags enter nowhere else (R190 to R194). -/
theorem microOp_of_mem_jumpFamily (j : JncBase2) {m : Mnemonic} (hm : m ∈ jumpFamily) (step : BitVec 3)
    (carry zero : Bool) :
    microOp j m step carry zero = uopAt [.fetch0, .fetch1, microOp j m 2#3 carry zero] step := by
  revert step carry zero m
  cases j <;> decide

/-- With the specified images a jump completes with the word of the fetch, of its own cell, or of padding. -/
theorem exec_of_mem_jumpFamily (i : Instr) (hi : i.mnemonic ∈ jumpFamily) {s : State} (hok : ImageOk s) :
    exec i s = .next (s.observe (sampleOf i.operands.half (s.cfg.word (uopAt
      [.fetch0, .fetch1, microOp s.cfg.jncBase2 i.mnemonic 2#3 i.operands.carry i.operands.zero]
      i.operands.step)))) := by
  rw [exec_of_imageOk i hok, uopOf, microOp_of_mem_jumpFamily _ hi]

/-- Past its own cell a jump has the zero word (R114, R123). -/
theorem controlWord_jump_of_three_le (c : Cfg) {m : Mnemonic} (hm : m ∈ jumpFamily) {step : BitVec 3}
    (carry zero : Bool) (h : 3 ≤ step.toNat) : controlWord c (c.opc.num m) step carry zero = 0#16 := by
  rw [controlWord_num, microOp_of_mem_jumpFamily _ hm, uopAt, List.getD_eq_default _ _ h, word_none]

/-- Step 2 has content, so the composite shows the final word there (R124). -/
theorem controlWord_two (c : Cfg) (opcode : BitVec 4) (carry zero : Bool) :
    controlWord c opcode 2#3 carry zero = final c opcode 2#3 carry zero :=
  controlWord_of_content c opcode carry zero (by decide)

end Sys2Proof.Machine

namespace Sys2Proof.Proofs.Jumps

open Sys2Proof Sys2Proof.Machine

/-! ## The statements -/

/-- Settles O22: at step 2 by the final word of each jump; at the other steps by the shared fetch and the padding. -/
theorem jumpFamilyTruthTable : Obligations.JumpFamilyTruthTable := by
  intro c carry zero
  simp only [controlWord_two, final_jc, final_jz, final_jnz]
  refine ⟨final_num c .jmp _ _ _, trivial, final_num c .jnc _ _ _, trivial, trivial, fun m hm => ⟨?_, ?_, ?_⟩⟩
  · rw [controlWord_num, microOp_zero]
  · rw [controlWord_num, microOp_one]
  · exact fun _ => controlWord_jump_of_three_le c hm carry zero

/-- Settles O23: JNC has the micro-operations of NOP after the fetch under UOP_NONE and those of JMP under UOP_JUMP, and
no flag enters its sequence. -/
theorem jncIsNopOrJmp : Obligations.JncIsNopOrJmp := by
  intro c step carry zero carry' zero'
  simp only [controlWord_num, microOp_eq_uopAt]
  refine ⟨?_, rfl⟩
  cases c.jncBase2 with
  | uopNone => rfl
  | uopJump => rfl

/-- Settles O33: JMP's own cell is UOP_JUMP. -/
theorem jmpPresentsItsWords : Obligations.JmpPresentsItsWords :=
  fun q _ => exec_of_mem_jumpFamily (.jmp q) (show Mnemonic.jmp ∈ jumpFamily by decide)

/-- Settles O34: JC's own cell is UOP_JUMP with carry set, else UOP_NONE. -/
theorem jcPresentsItsWords : Obligations.JcPresentsItsWords :=
  fun q _ => exec_of_mem_jumpFamily (.jc q) (show Mnemonic.jc ∈ jumpFamily by decide)

/-- Settles O35: JNC's own cell is JNC_BASE2, whatever the flags. -/
theorem jncPresentsItsWords : Obligations.JncPresentsItsWords :=
  fun q _ => exec_of_mem_jumpFamily (.jnc q) (show Mnemonic.jnc ∈ jumpFamily by decide)

/-- Settles O36: JZ's own cell is UOP_JUMP with zero set, else UOP_NONE. -/
theorem jzPresentsItsWords : Obligations.JzPresentsItsWords :=
  fun q _ => exec_of_mem_jumpFamily (.jz q) (show Mnemonic.jz ∈ jumpFamily by decide)

/-- Settles O37: JNZ's own cell is UOP_NONE with zero set, else UOP_JUMP. -/
theorem jnzPresentsItsWords : Obligations.JnzPresentsItsWords :=
  fun q _ => exec_of_mem_jumpFamily (.jnz q) (show Mnemonic.jnz ∈ jumpFamily by decide)

end Sys2Proof.Proofs.Jumps
end

section
/-! PROOFS. The family 44_misc.md: the words that OUT, HLT and NOP present, and that OUT loads no flags. -/

namespace Sys2Proof.Proofs.Misc

open Sys2Proof Sys2Proof.Machine

/-! ## The statements

As for the other families, `exec_presents_sequence` gives the sample at every step: one micro-operation of their own
after the fetch for OUT and HLT, none for NOP, and then padding. -/

/-- Settles O38: by `exec_presents_sequence`, and none of OUT's micro-operations is an ALU one. -/
theorem outPresentsItsWords : Obligations.OutPresentsItsWords :=
  fun q _ hok =>
    ⟨exec_presents_sequence (.out q) hok, fun step h11 => loadsFlags_uopAt_eq_false h11 (by decide) step⟩

/-- Settles O39: by `exec_presents_sequence`; HLT's own micro-operation is UOP_HALT, and its later steps are padding as
any other's (R221). -/
theorem hltPresentsItsWords : Obligations.HltPresentsItsWords :=
  fun q _ hok => exec_presents_sequence (.hlt q) hok

/-- Settles O40: by `exec_presents_sequence`; NOP has the shared fetch and no micro-operation of its own (R222). -/
theorem nopPresentsItsWords : Obligations.NopPresentsItsWords :=
  fun q _ hok => exec_presents_sequence (.nop q) hok

end Sys2Proof.Proofs.Misc
end

section
/-! PROOFS. The family 60_exceptions.md: no instruction faults, a device presents whatever its image lists, and what the
generator's partial-write faults leave in the image and in the log. The lemmas about a pass of writes and about `Generate`
are for the other families too. -/

namespace Sys2Proof.Machine

/-! ## The byte an instruction samples -/

/-- A listed cell is what its address reads as. -/
theorem Memory.read_of_listed {c : Cfg} {m : Memory} {a : Addr13} {v : Byte}
    (h : Memory.listed m a.toNat = some v) : Memory.read c m a = v := by
  rw [Memory.read, h, Option.getD_some]

/-- An instruction's byte comes from the device that its half operand selects (R28, R29). -/
theorem sampleAt_encode_byte_eq_read (s : State) (o : Opc) (i : Instr) :
    (s.sampleAt (encode o i)).byte = Memory.read s.cfg (s.image i.operands.half) (encode o i) := by
  rw [State.sampleAt, State.deviceByte, wires_encode, Instr.fields]

/-! ## A pass of writes (R249, R250) -/

/-- Writes over some addresses in order, at each the value that `val` gives it. Both passes of `Generate` are of this form
(`zeroFill_eq_writePass`, `writeContents_eq_writePass`). -/
def writePass (c : Cfg) (faults : List Addr13) (left val : Addr13 → Byte) (as : List Addr13) (g : Generated) :
    Generated :=
  as.foldl (fun g a => writeAt c faults left g a (val a)) g

theorem zeroFill_eq_writePass (c : Cfg) (faults : List Addr13) (left : Addr13 → Byte) (g : Generated) :
    zeroFill c faults left g = writePass c faults left (fun _ => 0#8) (addressesBelow 8192) g := rfl

theorem writeContents_eq_writePass (c : Cfg) (faults : List Addr13) (left : Addr13 → Byte) (as : List Addr13)
    (g : Generated) :
    writeContents c faults left as g =
      writePass c faults left (fun a => resolve c (wires a)) (as.filter fun a => hasContent (wires a).step) g :=
  List.foldl_filter.symm

section
variable (c : Cfg) (faults : List Addr13) (left val : Addr13 → Byte)

theorem writePass_cons (a : Addr13) (as : List Addr13) (g : Generated) :
    writePass c faults left val (a :: as) g = writePass c faults left val as (writeAt c faults left g a (val a)) := rfl

/-- A pass adds to the log each of its addresses that faults, with the value meant there. -/
theorem mem_log_writePass (as : List Addr13) (g : Generated) (b : Addr13) (v : Byte) :
    (b, v) ∈ (writePass c faults left val as g).log ↔
      (b, v) ∈ g.log ∨ (b ∈ as ∧ b ∈ faults ∧ v = val b) := by
  induction as generalizing g with
  | nil => simp [writePass]
  | cons a as ih =>
    have hhead : (a ∈ faults ∧ (b, v) = (a, val a)) ↔ (b = a ∧ b ∈ faults ∧ v = val b) := by grind
    rw [writePass_cons, ih, mem_log_writeAt, hhead, List.mem_cons, or_and_right, or_assoc]

theorem logged_writePass_iff (as : List Addr13) (g : Generated) (b : Addr13) :
    logged (writePass c faults left val as g).log b = true ↔ logged g.log b = true ∨ (b ∈ as ∧ b ∈ faults) := by
  simp only [logged_iff, mem_log_writePass, exists_or, exists_and_left, exists_eq, and_true]

/-- A pass decides nothing about an address that it does not write. -/
theorem logged_writePass_of_notMem {as : List Addr13} (g : Generated) {b : Addr13} (h : b ∉ as) :
    logged (writePass c faults left val as g).log b = logged g.log b := by
  rw [Bool.eq_iff_iff, logged_writePass_iff]
  simp only [h, false_and, or_false]

/-- After a pass each of its addresses reads as its free byte if it is logged and as the value meant there otherwise; every
other address reads as before. The last write to an address decides its byte, and it finds every fault there logged. -/
theorem read_writePass (as : List Addr13) (g : Generated) (b : Addr13) :
    Memory.read c (writePass c faults left val as g).image b =
      if b ∈ as then (if logged (writePass c faults left val as g).log b then left b else val b)
      else Memory.read c g.image b := by
  induction as generalizing g with
  | nil => rfl
  | cons a as ih =>
    rw [writePass_cons, ih]
    by_cases hlater : b ∈ as
    · rw [if_pos hlater, if_pos (List.mem_cons_of_mem a hlater)]
    · rw [if_neg hlater, read_writeAt, logged_writePass_of_notMem c faults left val _ hlater]
      by_cases hba : b = a
      · subst hba
        rw [if_pos rfl, if_pos List.mem_cons_self]
      · rw [if_neg hba, if_neg (mt List.mem_cons.mp (not_or.mpr ⟨hba, hlater⟩))]

end

/-! ## A run of the generator (R264) -/

/-- The addresses that the content pass writes. -/
def contentAddresses : List Addr13 := (addressesBelow 1024).filter fun a => hasContent (wires a).step

theorem mem_contentAddresses (a : Addr13) :
    a ∈ contentAddresses ↔ a.toNat < 1024 ∧ hasContent (wires a).step = true := by
  rw [contentAddresses, List.mem_filter, mem_addressesBelow (by decide)]

theorem mem_allAddresses (a : Addr13) : a ∈ addressesBelow 8192 :=
  (mem_addressesBelow le_rfl a).mpr a.isLt

/-- `RomByte` is what the later of the two passes means at an address. -/
theorem romByte_eq_ite_mem_contentAddresses (c : Cfg) (a : Addr13) :
    romByte c a = if a ∈ contentAddresses then resolve c (wires a) else 0#8 := by
  by_cases hlt : a.toNat < 1024
  · simp only [romByte_of_lt c hlt, mem_contentAddresses, hlt, true_and]
  · rw [romByte_of_ge c (Nat.not_lt.mp hlt), if_neg fun h => hlt ((mem_contentAddresses a).mp h).1]

section
variable {c : Cfg} {badFill badContent : List Addr13} {left : Addr13 → Byte} {before : Memory} {g : Generated}

theorem eq_writePass_of_generate (h : generate c true badFill badContent left before = some g) :
    g = writePass c badContent left (fun a => resolve c (wires a)) contentAddresses
      (writePass c badFill left (fun _ => 0#8) (addressesBelow 8192) ⟨before, []⟩) := by
  rw [generate, if_pos rfl, Option.some.injEq, writeContents_eq_writePass, zeroFill_eq_writePass] at h
  exact h.symm

/-- The log of a run: the faulted fill writes and the faulted content writes (R249). -/
theorem mem_log_of_generate (h : generate c true badFill badContent left before = some g) (a : Addr13) (v : Byte) :
    (a, v) ∈ g.log ↔
      (a ∈ badFill ∧ v = 0#8) ∨ (a ∈ contentAddresses ∧ a ∈ badContent ∧ v = resolve c (wires a)) := by
  rw [eq_writePass_of_generate h, mem_log_writePass, mem_log_writePass]
  simp only [List.not_mem_nil, mem_allAddresses, true_and, false_or]

/-- The image of a run: the free byte where a fault was logged, the specified byte everywhere else (R250, R267). -/
theorem read_of_generate (h : generate c true badFill badContent left before = some g) (a : Addr13) :
    Memory.read c g.image a = if logged g.log a then left a else romByte c a := by
  rw [eq_writePass_of_generate h, romByte_eq_ite_mem_contentAddresses, read_writePass, read_writePass,
    if_pos (mem_allAddresses a)]
  by_cases hcontent : a ∈ contentAddresses
  · rw [if_pos hcontent, if_pos hcontent]
  · rw [if_neg hcontent, if_neg hcontent, logged_writePass_of_notMem c badContent left _ _ hcontent]

theorem read_of_generate_of_notMem_log (h : generate c true badFill badContent left before = some g) {a : Addr13}
    (ha : ∀ v, (a, v) ∉ g.log) : Memory.read c g.image a = romByte c a := by
  rw [read_of_generate h, if_neg fun hlog => ((logged_iff _ _).mp hlog).elim ha]

theorem read_of_generate_of_mem_log (h : generate c true badFill badContent left before = some g) {a : Addr13}
    {v : Byte} (ha : (a, v) ∈ g.log) : Memory.read c g.image a = left a := by
  rw [read_of_generate h, if_pos ((logged_iff _ _).mpr ⟨v, ha⟩)]

/-- Nothing is logged at an address where neither pass faults. -/
theorem notMem_log_of_generate (h : generate c true badFill badContent left before = some g) {a : Addr13}
    (hfill : a ∉ badFill) (hcontent : a ∉ badContent) (v : Byte) : (a, v) ∉ g.log := by
  rw [mem_log_of_generate h]
  simp only [hfill, hcontent, false_and, and_false, or_false, not_false_eq_true]

end

end Sys2Proof.Machine

namespace Sys2Proof.Proofs.Exceptions

open Sys2Proof Sys2Proof.Machine

/-! ## The statements -/

/-- Settles O53: `read_of_generate` gives the byte at each address by whether it was logged, and `mem_log_of_generate` says
what was. -/
theorem faultFreeLogMeansSpecifiedImage : Obligations.FaultFreeLogMeansSpecifiedImage := by
  intro c badFill badContent left before g h
  refine ⟨fun hempty a => read_of_generate_of_notMem_log h fun v => hempty ▸ List.not_mem_nil,
    fun a => read_of_generate_of_notMem_log h,
    fun a hfill hcontent => read_of_generate_of_notMem_log h (notMem_log_of_generate h hfill hcontent),
    fun a v => read_of_generate_of_mem_log h, fun a v => ?_⟩
  rw [mem_log_of_generate h, mem_contentAddresses, and_assoc]

/-- Settles O55: the sampled byte is read from the device of the half operand, and a read prefers the listed cell. -/
theorem faultedByteIsPresented : Obligations.FaultedByteIsPresented :=
  fun i s _ hlisted => ⟨_, exec_eq_observe i s,
    (sampleAt_encode_byte_eq_read s s.cfg.opc i).trans (Memory.read_of_listed hlisted)⟩

/-- Settles O41: by `exec_eq_observe` every instruction notes the sample at its own address. -/
theorem everyInstructionCompletesWithOneSample : Obligations.EveryInstructionCompletesWithOneSample :=
  fun i s => ⟨_, exec_eq_observe i s⟩

end Sys2Proof.Proofs.Exceptions
end

section
/-! PROOFS. The family 70_reset_and_hazards.md: what `Generate` leaves on a device that held anything before, and that the
order and the repetition of content writes do not matter. -/

namespace Sys2Proof.Machine

/-! ## Passes over the same addresses (R265) -/

section
variable (c : Cfg) (faults : List Addr13) (left val : Addr13 → Byte)

theorem logged_writePass_congr {as bs : List Addr13} (h : ∀ a, a ∈ as ↔ a ∈ bs) (g : Generated) (b : Addr13) :
    logged (writePass c faults left val as g).log b = logged (writePass c faults left val bs g).log b := by
  rw [Bool.eq_iff_iff, logged_writePass_iff, logged_writePass_iff, h]

/-- The value meant at an address does not depend on when it is written, so the image after a pass depends on its list of
addresses only through the members. -/
theorem read_writePass_congr {as bs : List Addr13} (h : ∀ a, a ∈ as ↔ a ∈ bs) (g : Generated) (b : Addr13) :
    Memory.read c (writePass c faults left val as g).image b =
      Memory.read c (writePass c faults left val bs g).image b := by
  rw [read_writePass, read_writePass, logged_writePass_congr c faults left val h]
  simp only [h]

end

/-! ## A run that opens no sink, and a run in which every write completes (R248, R264) -/

theorem generate_eq_none_of_not_opens (c : Cfg) (badFill badContent : List Addr13) (left : Addr13 → Byte)
    (before : Memory) : generate c false badFill badContent left before = none := rfl

theorem exists_generate_of_opens (c : Cfg) (badFill badContent : List Addr13) (left : Addr13 → Byte)
    (before : Memory) : ∃ g, generate c true badFill badContent left before = some g := ⟨_, rfl⟩

theorem log_eq_nil_of_generate_nil {c : Cfg} {left : Addr13 → Byte} {before : Memory} {g : Generated}
    (h : generate c true [] [] left before = some g) : g.log = [] :=
  List.eq_nil_iff_forall_not_mem.mpr fun x =>
    notMem_log_of_generate h List.not_mem_nil List.not_mem_nil x.2

end Sys2Proof.Machine

namespace Sys2Proof.Proofs.ResetAndHazards

open Sys2Proof Sys2Proof.Machine

/-! ## The statements -/

/-- Settles O51: a run without faults logs nothing, and an address that is not logged reads as `RomByte` whatever was there
before, since the fill pass writes every address. -/
theorem generateMakesTheSpecifiedImage : Obligations.GenerateMakesTheSpecifiedImage := by
  intro c left before
  obtain ⟨g, hg⟩ := exists_generate_of_opens c [] [] left before
  have hnone (a : Addr13) : ∀ v, (a, v) ∉ g.log := notMem_log_of_generate hg List.not_mem_nil List.not_mem_nil
  exact ⟨⟨g, hg, log_eq_nil_of_generate_nil hg, fun a => read_of_generate_of_notMem_log hg (hnone a)⟩,
    fun badFill badContent => generate_eq_none_of_not_opens c badFill badContent left before⟩

/-- Settles O52: the content writes are one pass over the listed addresses with content, and lists with the same members
have the same of these. -/
theorem contentWritesInAnyOrderAndRepeated : Obligations.ContentWritesInAnyOrderAndRepeated := by
  intro c faults left g as bs hmem x
  rw [writeContents_eq_writePass, writeContents_eq_writePass]
  refine read_writePass_congr c faults left _ (fun a => ?_) g x
  rw [List.mem_filter, List.mem_filter, hmem]

end Sys2Proof.Proofs.ResetAndHazards
end
